-- ==== Sys2Proof/Word.lean ====
section
/-! DEFINITION. The widths of the block's values: bytes, 16-bit fields and 32-bit command and response words
(00_scope R6, R9; 30_encoding R90). -/

namespace Sys2Proof

/-- One data element, one index register, one wire byte (00_scope R6, 10_state R22). -/
abbrev Byte := BitVec 8

/-- `CK.acc`, `FC.idx`, and the operand and data fields of the two words (10_state R40, R45; 30_encoding R90, R91). -/
abbrev Half := BitVec 16

/-- A command word or a response word (30_encoding R90). -/
abbrev Word := BitVec 32

end Sys2Proof
end

