-- ==== Sys2Proof/Syntax.lean ====
section
/-! DEFINITION. The operations of the command port, one constructor for each of the 23 rows of spec/opcode_table.json
(30_encoding R94), with operands already assembled (R92). -/

namespace Sys2Proof

/-- The ring-buffer instances OUT, IN and AUX (10_state R25), in the order of their numbers 0, 1, 2 (30_encoding R92).
The reserved number 3 names none, so the decoder refuses it. -/
inductive RingId where
  | out
  | inp
  | aux
deriving DecidableEq, Repr

/-- The operations. -/
inductive Instr where
  /-- RB.WT q, b: stage one byte (41 R110). -/
  | rbWt (q : RingId) (b : Byte)
  /-- RB.CM q: publish the staged bytes (41 R112). -/
  | rbCm (q : RingId)
  /-- RB.AB q: discard the staged bytes (41 R113). -/
  | rbAb (q : RingId)
  /-- RB.RD q: pop the oldest committed byte (41 R114). -/
  | rbRd (q : RingId)
  /-- RB.RDW q: wait for a byte, then pop it (41 R122). -/
  | rbRdw (q : RingId)
  /-- RB.PK q: look at the oldest committed byte (41 R115). -/
  | rbPk (q : RingId)
  /-- RB.SZ q (41 R116). -/
  | rbSz (q : RingId)
  /-- RB.EM q (41 R117). -/
  | rbEm (q : RingId)
  /-- RB.FL q (41 R118). -/
  | rbFl (q : RingId)
  /-- SP.SEND b: stage one byte in OUT (42 R140). -/
  | spSend (b : Byte)
  /-- SP.COMMIT: publish OUT and, if the port is idle, start the transmit chain (42 R141). -/
  | spCommit
  /-- SP.AVAIL (42 R145). -/
  | spAvail
  /-- SP.GET (42 R146). -/
  | spGet
  /-- SP.IDLE (42 R147). -/
  | spIdle
  /-- FC.ENC b: escape one payload byte into OUT (43 R170). -/
  | fcEnc (b : Byte)
  /-- FC.END: a raw END into OUT (43 R172). -/
  | fcEnd
  /-- FC.DEC b: decode one wire byte (43 R174). -/
  | fcDec (b : Byte)
  /-- FC.IDXQ (43 R177). -/
  | fcIdxq
  /-- FC.ESCQ (43 R179). -/
  | fcEscq
  /-- FC.RDB i: read frame buffer byte i (43 R178). -/
  | fcRdb (i : Half)
  /-- CK.RST (44 R190). -/
  | ckRst
  /-- CK.UPD b (44 R191). -/
  | ckUpd (b : Byte)
  /-- CK.GET (44 R193). -/
  | ckGet
deriving DecidableEq, Repr

end Sys2Proof
end

