-- ==== Sys2Proof/Decode.lean ====
section
/-! DEFINITION. Command words: the decoder (30_encoding R90, R92, R94, R98), the encoder, and the opcode map of R94 as
a list of rows. A command word is one 32-bit value handed over at the command port; it lies in no memory and has no
byte order (log 23). -/

namespace Sys2Proof

/-- Why a command word has no meaning (30_encoding R98). -/
inductive DecodeError where
  /-- `cmd[31:24]` names no unit (R90), a non-zero `cmd[31:26]` in unit RB among them. -/
  | unknownUnit
  /-- `cmd[25:24] = 3` in unit RB (R92, R97). -/
  | reservedRing
  /-- `cmd[23:16]` names no function of the unit (R94). -/
  | unknownFunction
  /-- `cmd[15:8]` is not zero on an operation with a byte operand (R92). -/
  | operandHighByte
  /-- `cmd[15:0]` is not zero on an operation with no operand (R92). -/
  | operandNotZero
deriving DecidableEq, Repr

/-- `cmd[31:24]` (30_encoding R90). -/
def cmdUnit (w : Word) : Byte := w.extractLsb' 24 8

/-- `cmd[23:16]` (30_encoding R90). -/
def cmdFn (w : Word) : Byte := w.extractLsb' 16 8

/-- `cmd[15:0]` (30_encoding R90). -/
def cmdOpnd (w : Word) : Half := w.extractLsb' 0 16

/-- A byte operand: `b = cmd[7:0]`, and `cmd[15:8]` must be zero (30_encoding R92). -/
def byteOperand (opnd : Half) (mk : Byte → Instr) : Except DecodeError Instr :=
  if opnd.extractLsb' 8 8 = 0 then .ok (mk (opnd.extractLsb' 0 8)) else .error .operandHighByte

/-- No operand: `cmd[15:0]` must be zero (30_encoding R92). -/
def noOperand (opnd : Half) (i : Instr) : Except DecodeError Instr :=
  if opnd = 0 then .ok i else .error .operandNotZero

/-- Unit RB on instance `q` (30_encoding R94). -/
def decodeRb (q : RingId) (fn : Byte) (opnd : Half) : Except DecodeError Instr :=
  if fn = 0x00#8 then byteOperand opnd (.rbWt q)
  else if fn = 0x01#8 then noOperand opnd (.rbCm q)
  else if fn = 0x02#8 then noOperand opnd (.rbAb q)
  else if fn = 0x03#8 then noOperand opnd (.rbRd q)
  else if fn = 0x04#8 then noOperand opnd (.rbRdw q)
  else if fn = 0x05#8 then noOperand opnd (.rbPk q)
  else if fn = 0x06#8 then noOperand opnd (.rbSz q)
  else if fn = 0x07#8 then noOperand opnd (.rbEm q)
  else if fn = 0x08#8 then noOperand opnd (.rbFl q)
  else .error .unknownFunction

/-- Unit SP (30_encoding R94). -/
def decodeSp (fn : Byte) (opnd : Half) : Except DecodeError Instr :=
  if fn = 0x00#8 then byteOperand opnd .spSend
  else if fn = 0x01#8 then noOperand opnd .spCommit
  else if fn = 0x02#8 then noOperand opnd .spAvail
  else if fn = 0x03#8 then noOperand opnd .spGet
  else if fn = 0x04#8 then noOperand opnd .spIdle
  else .error .unknownFunction

/-- Unit FC (30_encoding R94); FC.RDB takes all 16 operand bits (R92). -/
def decodeFc (fn : Byte) (opnd : Half) : Except DecodeError Instr :=
  if fn = 0x00#8 then byteOperand opnd .fcEnc
  else if fn = 0x01#8 then noOperand opnd .fcEnd
  else if fn = 0x02#8 then byteOperand opnd .fcDec
  else if fn = 0x03#8 then noOperand opnd .fcIdxq
  else if fn = 0x04#8 then noOperand opnd .fcEscq
  else if fn = 0x05#8 then .ok (.fcRdb opnd)
  else .error .unknownFunction

/-- Unit CK (30_encoding R94). -/
def decodeCk (fn : Byte) (opnd : Half) : Except DecodeError Instr :=
  if fn = 0x00#8 then noOperand opnd .ckRst
  else if fn = 0x01#8 then byteOperand opnd .ckUpd
  else if fn = 0x02#8 then noOperand opnd .ckGet
  else .error .unknownFunction

/-- A unit's functions (30_encoding R90, R92): units 0x00 to 0x02 are unit RB on OUT, IN and AUX, 0x03 is the reserved
instance. -/
def decodeUnit (unit fn : Byte) (opnd : Half) : Except DecodeError Instr :=
  if unit = 0x00#8 then decodeRb .out fn opnd
  else if unit = 0x01#8 then decodeRb .inp fn opnd
  else if unit = 0x02#8 then decodeRb .aux fn opnd
  else if unit = 0x03#8 then .error .reservedRing
  else if unit = 0x10#8 then decodeSp fn opnd
  else if unit = 0x20#8 then decodeFc fn opnd
  else if unit = 0x30#8 then decodeCk fn opnd
  else .error .unknownUnit

/-- The operation a command word stands for, or why it stands for none. -/
def decode (w : Word) : Except DecodeError Instr :=
  decodeUnit (cmdUnit w) (cmdFn w) (cmdOpnd w)

/-- The format CMD32 (30_encoding R90). -/
def cmd32 (unit fn : Byte) (opnd : Half) : Word := (unit ++ fn) ++ opnd

/-- A byte operand in `cmd[7:0]` with `cmd[15:8] = 0` (30_encoding R92). -/
def byteField (b : Byte) : Half := (0#8) ++ b

/-- The unit byte of unit RB with its instance in `cmd[25:24]` (30_encoding R92). -/
def rbUnit : RingId → Byte
  | .out => 0x00#8
  | .inp => 0x01#8
  | .aux => 0x02#8

/-- The command word of an operation (30_encoding R94). -/
def encode : Instr → Word
  | .rbWt q b => cmd32 (rbUnit q) 0x00#8 (byteField b)
  | .rbCm q => cmd32 (rbUnit q) 0x01#8 0#16
  | .rbAb q => cmd32 (rbUnit q) 0x02#8 0#16
  | .rbRd q => cmd32 (rbUnit q) 0x03#8 0#16
  | .rbRdw q => cmd32 (rbUnit q) 0x04#8 0#16
  | .rbPk q => cmd32 (rbUnit q) 0x05#8 0#16
  | .rbSz q => cmd32 (rbUnit q) 0x06#8 0#16
  | .rbEm q => cmd32 (rbUnit q) 0x07#8 0#16
  | .rbFl q => cmd32 (rbUnit q) 0x08#8 0#16
  | .spSend b => cmd32 0x10#8 0x00#8 (byteField b)
  | .spCommit => cmd32 0x10#8 0x01#8 0#16
  | .spAvail => cmd32 0x10#8 0x02#8 0#16
  | .spGet => cmd32 0x10#8 0x03#8 0#16
  | .spIdle => cmd32 0x10#8 0x04#8 0#16
  | .fcEnc b => cmd32 0x20#8 0x00#8 (byteField b)
  | .fcEnd => cmd32 0x20#8 0x01#8 0#16
  | .fcDec b => cmd32 0x20#8 0x02#8 (byteField b)
  | .fcIdxq => cmd32 0x20#8 0x03#8 0#16
  | .fcEscq => cmd32 0x20#8 0x04#8 0#16
  | .fcRdb i => cmd32 0x20#8 0x05#8 i
  | .ckRst => cmd32 0x30#8 0x00#8 0#16
  | .ckUpd b => cmd32 0x30#8 0x01#8 (byteField b)
  | .ckGet => cmd32 0x30#8 0x02#8 0#16

/-- One row of the opcode map of 30_encoding R94: a word selects it when `cmd & mask == pattern`. -/
structure OpcodeRow where
  mnemonic : String
  pattern : Word
  mask : Word
deriving DecidableEq, Repr

/-- A word selects a row (30_encoding R94). -/
def OpcodeRow.selects (r : OpcodeRow) (w : Word) : Bool := w &&& r.mask == r.pattern

/-- The row of 30_encoding R94 that an operation belongs to, copied from the table there; the decoder and the encoder
above do not use it. -/
def opcodeRow : Instr → OpcodeRow
  | .rbWt _ _ => ⟨"RB.WT", 0x00000000#32, 0xFCFFFF00#32⟩
  | .rbCm _ => ⟨"RB.CM", 0x00010000#32, 0xFCFFFFFF#32⟩
  | .rbAb _ => ⟨"RB.AB", 0x00020000#32, 0xFCFFFFFF#32⟩
  | .rbRd _ => ⟨"RB.RD", 0x00030000#32, 0xFCFFFFFF#32⟩
  | .rbRdw _ => ⟨"RB.RDW", 0x00040000#32, 0xFCFFFFFF#32⟩
  | .rbPk _ => ⟨"RB.PK", 0x00050000#32, 0xFCFFFFFF#32⟩
  | .rbSz _ => ⟨"RB.SZ", 0x00060000#32, 0xFCFFFFFF#32⟩
  | .rbEm _ => ⟨"RB.EM", 0x00070000#32, 0xFCFFFFFF#32⟩
  | .rbFl _ => ⟨"RB.FL", 0x00080000#32, 0xFCFFFFFF#32⟩
  | .spSend _ => ⟨"SP.SEND", 0x10000000#32, 0xFFFFFF00#32⟩
  | .spCommit => ⟨"SP.COMMIT", 0x10010000#32, 0xFFFFFFFF#32⟩
  | .spAvail => ⟨"SP.AVAIL", 0x10020000#32, 0xFFFFFFFF#32⟩
  | .spGet => ⟨"SP.GET", 0x10030000#32, 0xFFFFFFFF#32⟩
  | .spIdle => ⟨"SP.IDLE", 0x10040000#32, 0xFFFFFFFF#32⟩
  | .fcEnc _ => ⟨"FC.ENC", 0x20000000#32, 0xFFFFFF00#32⟩
  | .fcEnd => ⟨"FC.END", 0x20010000#32, 0xFFFFFFFF#32⟩
  | .fcDec _ => ⟨"FC.DEC", 0x20020000#32, 0xFFFFFF00#32⟩
  | .fcIdxq => ⟨"FC.IDXQ", 0x20030000#32, 0xFFFFFFFF#32⟩
  | .fcEscq => ⟨"FC.ESCQ", 0x20040000#32, 0xFFFFFFFF#32⟩
  | .fcRdb _ => ⟨"FC.RDB", 0x20050000#32, 0xFFFF0000#32⟩
  | .ckRst => ⟨"CK.RST", 0x30000000#32, 0xFFFFFFFF#32⟩
  | .ckUpd _ => ⟨"CK.UPD", 0x30010000#32, 0xFFFFFF00#32⟩
  | .ckGet => ⟨"CK.GET", 0x30020000#32, 0xFFFFFFFF#32⟩

/-- The opcode map of 30_encoding R94, row by row. -/
def opcodeMap : List OpcodeRow :=
  [opcodeRow (.rbWt .out 0), opcodeRow (.rbCm .out), opcodeRow (.rbAb .out), opcodeRow (.rbRd .out),
    opcodeRow (.rbRdw .out), opcodeRow (.rbPk .out), opcodeRow (.rbSz .out), opcodeRow (.rbEm .out),
    opcodeRow (.rbFl .out)]
  ++ [opcodeRow (.spSend 0), opcodeRow .spCommit, opcodeRow .spAvail, opcodeRow .spGet, opcodeRow .spIdle]
  ++ [opcodeRow (.fcEnc 0), opcodeRow .fcEnd, opcodeRow (.fcDec 0), opcodeRow .fcIdxq, opcodeRow .fcEscq,
    opcodeRow (.fcRdb 0)]
  ++ [opcodeRow .ckRst, opcodeRow (.ckUpd 0), opcodeRow .ckGet]

/-- The command word with the low `nbits` bits of `w` and zeros above. -/
def tableWord (nbits w : Nat) : Word := BitVec.ofNat 32 (w % 2 ^ nbits)

/-- What the decoder reads from an opcode-table word. -/
def decodeTableWord (nbits w : Nat) : Option Instr :=
  match decode (tableWord nbits w) with
  | .ok i => some i
  | .error _ => none

end Sys2Proof
end

