-- ==== Sys2Proof/Config.lean ====
section
/-! DEFINITION. The parameters of the block (00_scope R5), the moves of its agents, and the free values: constants with
no body, for what the spec leaves unspecified. -/

namespace Sys2Proof

/-- The parameter `RX_OVERRUN`: what a byte that arrives while RXC = 1 does (00_scope R5, 60 R211). -/
inductive RxOverrun where
  | forbidden
  | dropNew
  | dropOld
  | either
deriving DecidableEq, Repr

/-- The parameters of 00_scope R5. -/
structure Config where
  /-- `N_OUT` -/
  nOut : Nat
  /-- `N_IN` -/
  nIn : Nat
  /-- `HAS_AUX` -/
  hasAux : Bool
  /-- `N_AUX` -/
  nAux : Nat
  /-- `F` -/
  frameCap : Nat
  /-- `RX_OVERRUN` -/
  rxOverrun : RxOverrun
  /-- `CK_INIT` -/
  ckInit : Half
deriving DecidableEq, Repr

/-- Every parameter is in the range of 00_scope R5. -/
abbrev Config.Valid (c : Config) : Prop :=
  (1 ≤ c.nOut ∧ c.nOut ≤ 255) ∧ (1 ≤ c.nIn ∧ c.nIn ≤ 255) ∧ (1 ≤ c.nAux ∧ c.nAux ≤ 255)
    ∧ (1 ≤ c.frameCap ∧ c.frameCap ≤ 65535)

/-- `Q.N` (10_state R22, R25). -/
def Config.cap (c : Config) : RingId → Nat
  | .out => c.nOut
  | .inp => c.nIn
  | .aux => c.nAux

/-- The block's separate arrays (20 R60). -/
inductive Space where
  | ring (q : RingId)
  | frame
deriving DecidableEq, Repr

/-- Which of the two outcomes that `RX_OVERRUN = either` admits takes place (60 R211, 93 U4). -/
inductive OverrunPick where
  | dropNew
  | dropOld
deriving DecidableEq, Repr

/-- One move of one agent (00_scope R7): FG's next atomic step, a run of a handler, a move of the wire. -/
inductive Move where
  /-- FG takes its next atomic step. -/
  | fg
  /-- TXI runs ISR.TXE (60 R205). -/
  | txe
  /-- RXI runs ISR.RXC (60 R206). -/
  | rxc
  /-- ENV: WIRE.TAKE (60 R210). -/
  | take
  /-- ENV: WIRE.ARRIVE(b) (60 R211). `pick` matters only when RXC = 1 and `RX_OVERRUN = either`. -/
  | arrive (b : Byte) (pick : OverrunPick)
deriving DecidableEq, Repr, Inhabited

/-- FREE VALUE (93 U2, log 6): the data field of the n-th response whose data the spec leaves unspecified. -/
opaque Config.freeData : Nat → Half

/-- FREE VALUE (93 U5, U6, log 3): which agent moves where the schedule says nothing. -/
opaque Config.freeMove : Nat → Move

/-- FREE VALUE (93 U1, log 7): the contents of an array element that nothing has written since reset. -/
opaque Config.powerOnByte : Space → Nat → Byte

/-- FREE VALUE (93 U1, log 8): `TXD` after reset. -/
opaque Config.powerOnTxd : Byte

/-- FREE VALUE (93 U1, log 8): `RXD` after reset. -/
opaque Config.powerOnRxd : Byte

/-- FREE VALUE (93 U1, log 8): `CK.acc` after reset. -/
opaque Config.powerOnCkAcc : Half

end Sys2Proof
end

