-- ==== Sys2Proof/Machine/Params.lean ====
section
/-! DEFINITION. The parameters that `State.reset` takes (00_scope R5; log 2). Every statement about the block ranges
over all parameters; these only make the one state `State.reset` a definite one. -/

namespace Sys2Proof.Machine

/-- The capacity taken where 00_scope R5 leaves it OPEN with no default (N_OUT, N_IN, N_AUX): the largest of its
range 1..255. DESIGN CHOICE, unsafe for a claim about `State.reset` alone (log 2). -/
def openCapacity : Nat := 255

/-- HAS_AUX at its default, F at its default, RX_OVERRUN as recommended, CK_INIT at its default (00_scope R5). -/
def resetConfig : Config where
  nOut := openCapacity
  nIn := openCapacity
  hasAux := false
  nAux := openCapacity
  frameCap := 128
  rxOverrun := .either
  ckInit := 0x0000#16

end Sys2Proof.Machine
end

