-- ==== Sys2Proof/Machine/State.lean ====
section
/-! DEFINITION. The state of the block (10_state R20), the command port, the observation aids of 00_scope R12, and the
reasons a step can stop. -/

namespace Sys2Proof.Machine

/-- An element array (20 R60): (index, byte) pairs with strictly rising indices. An element that nothing has written is
not listed (log 7). -/
abbrev Memory := List Host.Cell

/-- One ring-buffer instance (10_state R22). Its capacity is a parameter (`Config.cap`). -/
structure RingBuf where
  buf : Memory
  read : Byte
  write : Byte
  tentative : Byte
  full : Bool
deriving DecidableEq, Repr

/-- FG's control sub-state: the operation it has begun and not finished (10_state R21, R37). -/
inductive FgPhase where
  /-- No operation in progress; `commit_phase = none`. -/
  | idle
  /-- Between the two steps of an SP.COMMIT: `commit_phase = published` (10_state R37). -/
  | published
  /-- Between the two steps of an FC.ENC: the second byte, still to be emitted (00_scope R8, 43 R170; log 9). -/
  | encSecond (b : Byte)
  /-- Held at an RB.RDW on this instance (10_state R21, 41 R122; log 10). -/
  | holding (q : RingId)
deriving DecidableEq, Repr

/-- The values of `commit_phase` (10_state R37). -/
inductive CommitPhase where
  | none
  | published
deriving DecidableEq, Repr

/-- Why the machine stops. The hardware has no trap (60 R200). -/
inductive Fault where
  /-- An element access outside its array. Raised by the element accesses of ring-buffer operations, only in a state
  that breaks 10_state R23 (a), which no run reaches (20 R62). SAFE: the model stops (log 12). -/
  | indexOutOfRange (sp : Space) (i : Nat)
deriving DecidableEq, Repr

/-- Why the model gives a command no meaning. -/
inductive Refusal where
  /-- Raised by an arm of exec whose operation has no meaning yet; no arm does. SAFE: the model stops. -/
  | notModelled (mnemonic : String)
  /-- The command word has no meaning (30 R98). Raised by `step` when FG issues such a word. SAFE: the model stops
  (log 13). -/
  | illegalCommand (e : DecodeError)
  /-- The instance is one FG may not use on this side (30 R97). Raised by the unit RB operations. SAFE (log 13). -/
  | wrongSide (q : RingId)
  /-- An operation on AUX where HAS_AUX is false (30 R97). Raised by the unit RB operations. SAFE (log 13). -/
  | auxAbsent
deriving DecidableEq, Repr

/-- Everything the spec gives the block. -/
structure State where
  /-- The parameters of 00_scope R5; no step changes them (log 1). -/
  cfg : Config
  /-- OUT (10_state R25). -/
  out : RingBuf
  /-- IN (10_state R25). -/
  inp : RingBuf
  /-- AUX (10_state R25), reached by an operation only when HAS_AUX (log 14). -/
  aux : RingBuf
  /-- `idle` (10_state R31). -/
  idle : Bool
  /-- `TXIE` (10_state R32). -/
  txie : Bool
  /-- `TXD` (10_state R34). -/
  txd : Byte
  /-- `TXF` (10_state R34). -/
  txf : Bool
  /-- `RXD` (10_state R35). -/
  rxd : Byte
  /-- `RXC` (10_state R35). -/
  rxc : Bool
  /-- `IM` (10_state R36; log 15). -/
  im : Bool
  /-- `commit_phase` and the other operations FG can be in the middle of (10_state R21, R37). -/
  fgPhase : FgPhase
  /-- `FC.buf` (10_state R40). -/
  fcBuf : Memory
  /-- `FC.idx` (10_state R40). -/
  fcIdx : Half
  /-- `FC.esc` (10_state R40). -/
  fcEsc : Bool
  /-- `CK.acc` (10_state R45). -/
  ckAcc : Half
  /-- `wire_out`, oldest first (00_scope R12). -/
  wireOut : List Byte
  /-- `wire_in`, oldest first (00_scope R12). -/
  wireIn : List Byte
  /-- The command words FG has still to issue, the next one first (30 R90; log 4). -/
  cmds : List Word
  /-- The response of the last operation; none before the first one and while one is in progress (30 R91; log 5). -/
  resp : Option Word
  /-- MODEL's field: the agents' next moves, the next one first (20 R67; log 3). -/
  schedule : List Move
  /-- MODEL's field: how many free values have been taken (log 6). -/
  draws : Nat
deriving DecidableEq, Repr

/-- A ring buffer after reset: "created with all indices at 0, `full=false`" (10_state R55), no element written. -/
def RingBuf.reset : RingBuf where
  buf := []
  read := 0
  write := 0
  tentative := 0
  full := false

/-- The block with parameters `c` after reset (10_state R55, 70 R231). -/
def State.resetFor (c : Config) : State where
  cfg := c
  out := RingBuf.reset
  inp := RingBuf.reset
  aux := RingBuf.reset
  idle := true
  txie := false
  txd := Config.powerOnTxd
  txf := false
  rxd := Config.powerOnRxd
  rxc := false
  im := false
  fgPhase := .idle
  fcBuf := []
  fcIdx := 0
  fcEsc := false
  ckAcc := Config.powerOnCkAcc
  wireOut := []
  wireIn := []
  cmds := []
  resp := none
  schedule := []
  draws := 0

/-- The machine right after reset. -/
def State.reset : State := State.resetFor resetConfig

/-- `commit_phase` (10_state R37). -/
def State.commitPhase (s : State) : CommitPhase :=
  match s.fgPhase with
  | .published => .published
  | .idle => .none
  | .encSecond _ => .none
  | .holding _ => .none

/-- The outcome of a step of this machine. -/
abbrev Result := Host.Outcome State Fault Refusal

end Sys2Proof.Machine
end

