-- ==== Sys2Proof/Machine/Flags.lean ====
section
/-! DEFINITION. The flags of 10_state R50: how `Q.full` is computed, what empty means, when a handler is enabled. -/

namespace Sys2Proof.Machine

/-- The buffer has no byte for its consumer: `Q.read == Q.write and not Q.full` (41 R114, R117). -/
def RingBuf.isEmpty (q : RingBuf) : Bool := q.read == q.write && !q.full

/-- `Q.full` after a byte is staged and `tentative` has become `t`: set when `t` equals `read`, never cleared
(41 R110). -/
def RingBuf.fullAfterStage (q : RingBuf) (t : Byte) : Bool := q.full || t == q.read

/-- A boolean as a data value: false is 0 and true is 1 (00_scope R9). -/
def boolData (b : Bool) : Half := if b then 1#16 else 0#16

/-- ISR.TXE is enabled (60 R203). -/
def State.txeEnabled (s : State) : Bool := s.txie && !s.txf && !s.im

/-- ISR.RXC is enabled (60 R203). -/
def State.rxcEnabled (s : State) : Bool := s.rxc && !s.im

end Sys2Proof.Machine
end

