-- ==== Sys2Proof/Machine/Ops.lean ====
section
/-! DEFINITION. The named operations over memory, registers and the command port. The block has no exception to take
and none to return from (60 R200, R208, R209), so no such operation is here; the handlers are in Agents.lean. -/

namespace Sys2Proof.Machine

/-! ### Element arrays (00_scope R11, 20 R60, R62) -/

/-- The byte listed at an index; none where nothing has been written. -/
def Memory.look : Memory → Nat → Option Byte
  | [], _ => none
  | (a, v) :: m, i => if a = i then some v else Memory.look m i

/-- Set the byte at an index, keeping the indices strictly rising. -/
def Memory.store : Memory → Nat → Byte → Memory
  | [], i, b => [(i, b)]
  | (a, v) :: m, i, b =>
    if i < a then (i, b) :: (a, v) :: m
    else if i = a then (i, b) :: m
    else (a, v) :: Memory.store m i b

/-- The canonical form: strictly rising indices. An unlisted element has no value in the list, so no entry can equal
it (log 7). -/
abbrev Memory.Wf (m : Memory) : Prop := m.Pairwise (fun x y => x.1 < y.1)

/-- Every listed index is inside an array of `n` elements (20 R60). -/
abbrev Memory.Below (n : Nat) (m : Memory) : Prop := ∀ c ∈ m, c.1 < n

/-- The contents of element `i` of array `sp`: the byte last written, or the free value of an element nothing has
written since reset (93 U1; log 7). -/
def Memory.byteAt (sp : Space) (m : Memory) (i : Nat) : Byte :=
  match Memory.look m i with
  | some b => b
  | none => Config.powerOnByte sp i

/-- `MemRead(Q.buf, i, 1)` on an array of `n` elements (00_scope R11). -/
def memRead (sp : Space) (n : Nat) (m : Memory) (i : Nat) : Except Fault Byte :=
  if i < n then .ok (Memory.byteAt sp m i) else .error (.indexOutOfRange sp i)

/-- `MemWrite(Q.buf, i, 1, b)` on an array of `n` elements (00_scope R11). -/
def memWrite (sp : Space) (n : Nat) (m : Memory) (i : Nat) (b : Byte) : Except Fault Memory :=
  if i < n then .ok (Memory.store m i b) else .error (.indexOutOfRange sp i)

/-! ### Index arithmetic (00_scope R10, 41 R125) -/

/-- `inc_N(i) = (i + 1) mod N`. -/
def incN (n : Nat) (i : Byte) : Byte := BitVec.ofNat 8 ((i.toNat + 1) % n)

/-- `(a - b) mod N`, the mathematical remainder of the integer difference. -/
def diffN (n : Nat) (a b : Byte) : Nat := (((a.toNat : Int) - (b.toNat : Int)) % (n : Int)).toNat

/-! ### Ring-buffer instances (10_state R25) -/

/-- Instance `q`. -/
def State.ring (s : State) (q : RingId) : RingBuf :=
  match q with
  | .out => s.out
  | .inp => s.inp
  | .aux => s.aux

/-- Replace instance `q`. -/
def State.setRing (s : State) (q : RingId) (r : RingBuf) : State :=
  { s with
    out := match q with
      | .out => r
      | .inp => s.out
      | .aux => s.out
    inp := match q with
      | .out => s.inp
      | .inp => r
      | .aux => s.inp
    aux := match q with
      | .out => s.aux
      | .inp => s.aux
      | .aux => r }

/-- `Q.N`. -/
def State.cap (s : State) (q : RingId) : Nat := s.cfg.cap q

/-! ### The command port (30 R91) and the free values -/

/-- The response word: `resp[31:17] = 0`, `resp[16] = ok`, `resp[15:0] = data` (30 R91). -/
def respWord (ok : Bool) (data : Half) : Word := ((0#15) ++ BitVec.ofBool ok) ++ data

/-- A byte zero-extended into the data field (30 R91). -/
def byteData (v : Byte) : Half := BitVec.setWidth 16 v

/-- `ret(ok, data)` (00_scope R11). -/
def respond (ok : Bool) (data : Half) (s : State) : State :=
  { s with resp := some (respWord ok data) }

/-- `ret(ok)` with no defined data: the data field is a free value (30 R91, 93 U2; log 6). -/
def respondFree (ok : Bool) (s : State) : State :=
  { s with resp := some (respWord ok (Config.freeData s.draws)), draws := s.draws + 1 }

/-- The end of FG's operation: nothing in progress. -/
def endOp (s : State) : State := { s with fgPhase := .idle }

/-- Load the transmit data register: `TXD <- v ; TXF <- 1` (10_state R34). -/
def loadTxd (v : Byte) (s : State) : State := { s with txd := v, txf := true }

/-- The agent that moves next: the schedule's next move, or a free one where the schedule says nothing
(20 R67, 93 U5, U6; log 3). -/
def nextMove (s : State) : Move × State :=
  match s.schedule with
  | m :: ms => (m, { s with schedule := ms })
  | [] => (Config.freeMove s.draws, { s with draws := s.draws + 1 })

/-- A state or a fault, as a result. -/
def settle (r : Except Fault State) : Result :=
  match r with
  | .ok s => .next s
  | .error f => .fault f

end Sys2Proof.Machine
end

