-- ==== Sys2Proof/WellFormed.lean ====
section
/-! DEFINITION. Which operations FG may issue: the side restrictions of 30_encoding R97. Operand widths and the
reserved instance number need no check here, since the types of `Instr` admit no other. -/

namespace Sys2Proof

/-- The side of a ring buffer an operation acts on (30_encoding R97). -/
inductive Side where
  | producer
  | consumer
  | status
deriving DecidableEq, Repr

/-- The instance and the side that a unit RB operation names; none for the other units. -/
def Instr.ringUse : Instr → Option (Side × RingId)
  | .rbWt q _ => some (.producer, q)
  | .rbCm q => some (.producer, q)
  | .rbAb q => some (.producer, q)
  | .rbRd q => some (.consumer, q)
  | .rbRdw q => some (.consumer, q)
  | .rbPk q => some (.consumer, q)
  | .rbSz q => some (.status, q)
  | .rbEm q => some (.status, q)
  | .rbFl q => some (.status, q)
  | .spSend _ => none
  | .spCommit => none
  | .spAvail => none
  | .spGet => none
  | .spIdle => none
  | .fcEnc _ => none
  | .fcEnd => none
  | .fcDec _ => none
  | .fcIdxq => none
  | .fcEscq => none
  | .fcRdb _ => none
  | .ckRst => none
  | .ckUpd _ => none
  | .ckGet => none

/-- FG produces into OUT and AUX, consumes from IN and AUX, and may ask the status of every existing one
(30_encoding R97). -/
def sideAllows (hasAux : Bool) : Side → RingId → Bool
  | _, .aux => hasAux
  | .producer, .out => true
  | .producer, .inp => false
  | .consumer, .out => false
  | .consumer, .inp => true
  | .status, .out => true
  | .status, .inp => true

/-- An operation FG may issue on a block with (`hasAux`) or without the instance AUX. -/
def Instr.wellFormed (hasAux : Bool) (i : Instr) : Bool :=
  match i.ringUse with
  | some (side, q) => sideAllows hasAux side q
  | none => true

end Sys2Proof
end

