-- ==== Sys2Proof/Machine/Operands.lean ====
section
/-! DEFINITION. The operand forms: which instance FG may name (30 R97) and the four addressing forms of 20 R66. -/

namespace Sys2Proof.Machine

/-- The side restriction of 30 R97 on FG's use of an instance; none where the operation is accepted. -/
def portCheck (side : Side) (q : RingId) (s : State) : Option Refusal :=
  match q, side with
  | .aux, _ => if s.cfg.hasAux then none else some .auxAbsent
  | .out, .producer => none
  | .out, .status => none
  | .out, .consumer => some (.wrongSide .out)
  | .inp, .consumer => none
  | .inp, .status => none
  | .inp, .producer => some (.wrongSide .inp)

/-- Run `o` where the side restriction accepts the instance, else refuse with no effect (30 R97, R98). -/
def guardPort (side : Side) (q : RingId) (s : State) (o : Result) : Result :=
  match portCheck side q s with
  | some r => .refused r
  | none => o

/-- (a) Staging store with post-increment, wrapping at N (20 R66 (a)): the new array and the new index. -/
def stageStore (sp : Space) (n : Nat) (m : Memory) (i : Byte) (b : Byte) : Except Fault (Memory × Byte) :=
  match memWrite sp n m i.toNat b with
  | .ok m' => .ok (m', incN n i)
  | .error f => .error f

/-- (b) Consuming load with post-increment, wrapping at N (20 R66 (b)): the byte and the new index. -/
def consumeLoad (sp : Space) (n : Nat) (m : Memory) (i : Byte) : Except Fault (Byte × Byte) :=
  match memRead sp n m i.toNat with
  | .ok v => .ok (v, incN n i)
  | .error f => .error f

/-- (c) Frame store with saturating post-increment (20 R66 (c), 43 R174 `store`, R175): at `FC.idx == F` the byte is
dropped. -/
def frameStore (v : Byte) (s : State) : State :=
  if s.fcIdx.toNat < s.cfg.frameCap then
    { s with fcBuf := Memory.store s.fcBuf s.fcIdx.toNat v, fcIdx := s.fcIdx + 1 }
  else s

/-- (d) Direct index into the frame buffer (20 R66 (d)): none where `i >= F` (43 R178). -/
def frameLoad (i : Half) (s : State) : Option Byte :=
  if i.toNat < s.cfg.frameCap then some (Memory.byteAt .frame s.fcBuf i.toNat) else none

end Sys2Proof.Machine
end

