-- ==== Sys2Proof/Machine/Queue.lean ====
section
/-! DEFINITION. The contracts of unit RB on one ring buffer (41), which the unit RB operations, the serial port, the
encoder and the handlers share. -/

namespace Sys2Proof.Machine

/-- `write_tentative(b)` on a buffer of `n` elements (41 R110): whether it was staged, and the buffer after. -/
def RingBuf.writeTentative (sp : Space) (n : Nat) (q : RingBuf) (b : Byte) : Except Fault (Bool × RingBuf) :=
  if q.full then .ok (false, q)
  else
    match stageStore sp n q.buf q.tentative b with
    | .ok (m, t) => .ok (true, { q with buf := m, tentative := t, full := q.fullAfterStage t })
    | .error f => .error f

/-- `commit()` (41 R112). -/
def RingBuf.commit (q : RingBuf) : RingBuf := { q with write := q.tentative }

/-- `abort()` / `reset_tentative()` (41 R113). -/
def RingBuf.abort (q : RingBuf) : RingBuf :=
  if q.tentative = q.write then q else { q with tentative := q.write, full := false }

/-- `read()` on a buffer of `n` elements (41 R114): the byte, or none where there is none, and the buffer after. -/
def RingBuf.pop (sp : Space) (n : Nat) (q : RingBuf) : Except Fault (Option Byte × RingBuf) :=
  if q.isEmpty then .ok (none, q)
  else
    match consumeLoad sp n q.buf q.read with
    | .ok (v, r) => .ok (some v, { q with read := r, full := false })
    | .error f => .error f

/-- `peek` on a buffer of `n` elements (41 R115): the byte `read()` would give. -/
def RingBuf.peek (sp : Space) (n : Nat) (q : RingBuf) : Except Fault (Option Byte) :=
  if q.isEmpty then .ok none
  else
    match memRead sp n q.buf q.read.toNat with
    | .ok v => .ok (some v)
    | .error f => .error f

/-- `size()` of a buffer of `n` elements (41 R116). -/
def RingBuf.size (n : Nat) (q : RingBuf) : Nat := if q.full then n else diffN n q.write q.read

/-- `Q.write_tentative(b)` as part of an atomic step: whether it was staged, and the state after. -/
def stage (q : RingId) (b : Byte) (s : State) : Except Fault (Bool × State) :=
  match (s.ring q).writeTentative (.ring q) (s.cap q) b with
  | .ok (ok, r) => .ok (ok, s.setRing q r)
  | .error f => .error f

/-- `Q.commit()` as part of an atomic step. -/
def publish (q : RingId) (s : State) : State := s.setRing q (s.ring q).commit

/-- `Q.read()` as part of an atomic step: the byte, if any, and the state after. -/
def pop (q : RingId) (s : State) : Except Fault (Option Byte × State) :=
  match (s.ring q).pop (.ring q) (s.cap q) with
  | .ok (v, r) => .ok (v, s.setRing q r)
  | .error f => .error f

/-- A tentative write answered with its result, and no data (41 R110, 42 R140). -/
def stageAndRespond (q : RingId) (b : Byte) (s : State) : Result :=
  match stage q b s with
  | .ok (ok, s') => .next (respondFree ok s')
  | .error f => .fault f

/-- Answer with a byte, or with `ok = 0` and unspecified data where there is none (41 R114, R115). -/
def respondByte (v : Option Byte) (s : State) : State :=
  match v with
  | some b => respond true (byteData b) s
  | none => respondFree false s

/-- A read answered with its byte (41 R114, 42 R146). -/
def popAndRespond (q : RingId) (s : State) : Result :=
  match pop q s with
  | .ok (v, s') => .next (respondByte v s')
  | .error f => .fault f

/-- `read_w()`: held while the buffer is empty, else the read as one atomic step (41 R122; log 10). The same at the
issue of RB.RDW and at each later poll of the held FG. -/
def readWait (q : RingId) (s : State) : Result :=
  if (s.ring q).isEmpty then .next { s with fgPhase := .holding q }
  else popAndRespond q (endOp s)

end Sys2Proof.Machine
end

