-- ==== Sys2Proof/Machine/FrameCodec.lean ====
section
/-! DEFINITION. Unit FC: the encoder and the decoder of 43. FC.ENC of END or ESC is two atomic steps; `execFcEnc` is
the first, `encodeSecond` the second, which FG takes at its next move. -/

namespace Sys2Proof.Machine

/-- END (00_scope R6). -/
def bEND : Byte := 0xC0#8

/-- ESC (00_scope R6). -/
def bESC : Byte := 0xDB#8

/-- ESC_END (00_scope R6). -/
def bESCEND : Byte := 0xDC#8

/-- ESC_ESC (00_scope R6). -/
def bESCESC : Byte := 0xDD#8

/-- The byte that follows an ESC to stand for `b`; none for a byte that is sent verbatim (30 R81). -/
def escapeCode (b : Byte) : Option Byte :=
  if b = bEND then some bESCEND
  else if b = bESC then some bESCESC
  else none

/-- `slip_enc`: the wire bytes of one payload byte (30 R81). -/
def slipEnc (b : Byte) : List Byte :=
  match escapeCode b with
  | some c => [bESC, c]
  | none => [b]

/-- What the byte after an ESC stands for (43 R174 branch 1). -/
def unescape (b : Byte) : Byte :=
  if b = bESCEND then bEND
  else if b = bESCESC then bESC
  else b

/-- FC.ENC b (43 R170): the only byte, or the ESC of a pair. -/
def execFcEnc (b : Byte) (s : State) : Result :=
  match escapeCode b with
  | none => stageAndRespond .out b s
  | some c =>
    match stage .out bESC s with
    | .ok (true, s') => .next { s' with fgPhase := .encSecond c }
    | .ok (false, s') => .next (respondFree false s')
    | .error f => .fault f

/-- The second step of FC.ENC (43 R170): the byte `c` after the ESC. -/
def encodeSecond (c : Byte) (s : State) : Result := stageAndRespond .out c (endOp s)

/-- FC.END (43 R172). -/
def execFcEnd (s : State) : Result := stageAndRespond .out bEND s

/-- FC.DEC b (43 R174, R175): the four branches in their order. `ok = 0` comes with data 0, as R174 says (log 11). -/
def execFcDec (b : Byte) (s : State) : Result :=
  if s.fcEsc then .next (respond false 0#16 (frameStore (unescape b) { s with fcEsc := false }))
  else if b = bESC then .next (respond false 0#16 { s with fcEsc := true })
  else if b = bEND then .next (respond true s.fcIdx { s with fcIdx := 0#16, fcEsc := false })
  else .next (respond false 0#16 (frameStore b s))

/-- FC.IDXQ (43 R177). -/
def execFcIdxq (s : State) : Result := .next (respond true s.fcIdx s)

/-- FC.ESCQ (43 R179). -/
def execFcEscq (s : State) : Result := .next (respond true (boolData s.fcEsc) s)

/-- FC.RDB i (43 R178). -/
def execFcRdb (i : Half) (s : State) : Result := .next (respondByte (frameLoad i s) s)

end Sys2Proof.Machine
end

