-- ==== Sys2Proof/Machine/RingBuffer.lean ====
section
/-! DEFINITION. Unit RB: the nine operations of 41, each under the side restriction of 30 R97. -/

namespace Sys2Proof.Machine

/-- RB.WT q, b (41 R110). -/
def execRbWt (q : RingId) (b : Byte) (s : State) : Result :=
  guardPort .producer q s (stageAndRespond q b s)

/-- RB.CM q (41 R112); `ok` is always 1, with no data. -/
def execRbCm (q : RingId) (s : State) : Result :=
  guardPort .producer q s (.next (respondFree true (publish q s)))

/-- RB.AB q (41 R113); `ok` is always 1, with no data. -/
def execRbAb (q : RingId) (s : State) : Result :=
  guardPort .producer q s (.next (respondFree true (s.setRing q (s.ring q).abort)))

/-- RB.RD q (41 R114). -/
def execRbRd (q : RingId) (s : State) : Result :=
  guardPort .consumer q s (popAndRespond q s)

/-- RB.RDW q (41 R122): its hold, or its read. -/
def execRbRdw (q : RingId) (s : State) : Result :=
  guardPort .consumer q s (readWait q s)

/-- RB.PK q (41 R115). -/
def execRbPk (q : RingId) (s : State) : Result :=
  guardPort .consumer q s <|
    match (s.ring q).peek (.ring q) (s.cap q) with
    | .ok v => .next (respondByte v s)
    | .error f => .fault f

/-- RB.SZ q (41 R116). -/
def execRbSz (q : RingId) (s : State) : Result :=
  guardPort .status q s (.next (respond true (BitVec.ofNat 16 ((s.ring q).size (s.cap q))) s))

/-- RB.EM q (41 R117). -/
def execRbEm (q : RingId) (s : State) : Result :=
  guardPort .status q s (.next (respond true (boolData (s.ring q).isEmpty) s))

/-- RB.FL q (41 R118). -/
def execRbFl (q : RingId) (s : State) : Result :=
  guardPort .status q s (.next (respond true (boolData (s.ring q).full) s))

end Sys2Proof.Machine
end

