-- ==== Sys2Proof/Machine/SerialPort.lean ====
section
/-! DEFINITION. Unit SP: the five operations of 42. SP.COMMIT is two atomic steps; `execSpCommit` is the first,
`commitKick` the second, which FG takes at its next move. -/

namespace Sys2Proof.Machine

/-- SP.SEND b (42 R140). -/
def execSpSend (b : Byte) (s : State) : Result := stageAndRespond .out b s

/-- SP.COMMIT step 1, publish (42 R142). -/
def execSpCommit (s : State) : Result := .next { publish .out s with fgPhase := .published }

/-- The body of SP.COMMIT step 2 (42 R143), under the mask: if the port is idle and OUT holds a byte, clear `idle`, set
`TXIE`, pop the byte and load `TXD`. -/
def startChain (s : State) : Except Fault State :=
  if s.idle && !s.out.isEmpty then
    match pop .out { s with idle := false, txie := true } with
    | .ok (some v, s') => .ok (loadTxd v s')
    | .ok (none, s') => .ok s'
    | .error f => .error f
  else .ok s

/-- SP.COMMIT step 2, kick (42 R143): one atomic step with `IM` set inside it. -/
def commitKick (s : State) : Result :=
  match startChain { s with im := true } with
  | .ok s' => .next (respondFree true (endOp { s' with im := false }))
  | .error f => .fault f

/-- SP.AVAIL (42 R145). -/
def execSpAvail (s : State) : Result := .next (respond true (boolData (!s.inp.isEmpty)) s)

/-- SP.GET (42 R146). -/
def execSpGet (s : State) : Result := popAndRespond .inp s

/-- SP.IDLE (42 R147). -/
def execSpIdle (s : State) : Result := .next (respond true (boolData s.idle) s)

end Sys2Proof.Machine
end

