-- ==== Sys2Proof/Machine/Agents.lean ====
section
/-! DEFINITION. The agents other than the issue of a command: the two interrupt handlers (60 R205, R206), the wire
(60 R210, R211), and what FG does at its next move (10_state R21, R37). An agent that has no step enabled leaves the
block as it is (log 3). -/

namespace Sys2Proof.Machine

/-- The body of ISR.TXE (60 R205): pop OUT into `TXD`, or, OUT being empty, stop the chain. -/
def txeBody (s : State) : Except Fault State :=
  match pop .out s with
  | .ok (some v, s') => .ok (loadTxd v s')
  | .ok (none, s') => .ok { s' with txie := false, idle := true }
  | .error f => .error f

/-- The move of TXI: ISR.TXE where it is enabled (60 R203). -/
def isrTxe (s : State) : Result := if s.txeEnabled then settle (txeBody s) else .next s

/-- The body of ISR.RXC (60 R206): take `RXD`, stage and commit it into IN; the result of the write is ignored. -/
def rxcBody (s : State) : Except Fault State :=
  match stage .inp s.rxd { s with rxc := false } with
  | .ok (_, s') => .ok (publish .inp s')
  | .error f => .error f

/-- The move of RXI: ISR.RXC where it is enabled (60 R203). -/
def isrRxc (s : State) : Result := if s.rxcEnabled then settle (rxcBody s) else .next s

/-- WIRE.TAKE where it is enabled (60 R210): `TXD` keeps its value. -/
def wireTake (s : State) : State :=
  if s.txf then { s with wireOut := s.wireOut ++ [s.txd], txf := false } else s

/-- A byte that arrives while RXC = 1 (60 R211): the register keeps its byte or takes the new one. -/
def wireOverrun (b : Byte) (pick : OverrunPick) (s : State) : State :=
  match pick with
  | .dropNew => { s with wireIn := s.wireIn ++ [b] }
  | .dropOld => { s with wireIn := s.wireIn ++ [b], rxd := b }

/-- WIRE.ARRIVE(b) (60 R211). `pick` is the outcome taken where RX_OVERRUN admits either (log 21). -/
def wireArrive (b : Byte) (pick : OverrunPick) (s : State) : State :=
  if s.rxc then
    match s.cfg.rxOverrun with
    | .forbidden => s
    | .dropNew => wireOverrun b .dropNew s
    | .dropOld => wireOverrun b .dropOld s
    | .either => wireOverrun b pick s
  else { s with wireIn := s.wireIn ++ [b], rxd := b, rxc := true }

/-- What FG does at its next move: issue a command word, or go on (`done`) without one. -/
inductive FgTurn where
  | issue (w : Word) (s : State)
  | done (o : Result)

/-- FG's next move: finish the operation in progress (42 R143, 43 R170, 41 R122), else issue the next command word,
else nothing (60 R218). A word that is issued leaves the list, and its response is still to come (log 4, 5). -/
def fgTurn (s : State) : FgTurn :=
  match s.fgPhase with
  | .published => .done (commitKick s)
  | .encSecond c => .done (encodeSecond c s)
  | .holding q => .done (readWait q s)
  | .idle =>
    match s.cmds with
    | w :: ws => .issue w { s with cmds := ws, resp := none }
    | [] => .done (.next s)

/-- Place command word `w` so that the very next step issues and runs it: first in FG's list, FG with nothing in
progress, FG to move. -/
def placeCommand (w : Word) (s : State) : State :=
  { s with cmds := w :: s.cmds, fgPhase := .idle, schedule := .fg :: s.schedule }

end Sys2Proof.Machine
end

