-- ==== Sys2Proof/Machine/Checksum.lean ====
section
/-! DEFINITION. Unit CK: the 16-bit checksum accumulator of 44. -/

namespace Sys2Proof.Machine

/-- `swap_bytes(a) = {a[7:0], a[15:8]}` (00_scope R10). -/
def swapBytes (a : Half) : Half := a.extractLsb' 0 8 ++ a.extractLsb' 8 8

/-- The five-statement update of 44 R191 on 16-bit values, one line a statement; shifts to the left lose the bits
beyond bit 15. -/
def ckUpdate (a0 : Half) (b : Byte) : Half :=
  let a1 := a0 ^^^ byteData b
  let a2 := swapBytes a1
  let a3 := a2 ^^^ ((a2 &&& 0xFF00#16) <<< 4)
  let a4 := a3 ^^^ ((a3 >>> 8) >>> 4)
  a4 ^^^ ((a4 &&& 0xFF00#16) >>> 5)

/-- CK.RST (44 R190): to the parameter CK_INIT (00_scope R5; log 16). -/
def execCkRst (s : State) : Result := .next (respondFree true { s with ckAcc := s.cfg.ckInit })

/-- CK.UPD b (44 R191). -/
def execCkUpd (b : Byte) (s : State) : Result :=
  .next (respondFree true { s with ckAcc := ckUpdate s.ckAcc b })

/-- CK.GET (44 R193). -/
def execCkGet (s : State) : Result := .next (respond true s.ckAcc s)

end Sys2Proof.Machine
end

