-- ==== Sys2Proof/Machine/Dispatch.lean ====
section
/-! DEFINITION. One arm for each operation. -/

namespace Sys2Proof.Machine

def exec (i : Instr) (s : State) : Host.Outcome State Fault Refusal :=
  match i with
  | .rbWt q b => Sys2Proof.Machine.execRbWt q b s
  | .rbCm q => Sys2Proof.Machine.execRbCm q s
  | .rbAb q => Sys2Proof.Machine.execRbAb q s
  | .rbRd q => Sys2Proof.Machine.execRbRd q s
  | .rbRdw q => Sys2Proof.Machine.execRbRdw q s
  | .rbPk q => Sys2Proof.Machine.execRbPk q s
  | .rbSz q => Sys2Proof.Machine.execRbSz q s
  | .rbEm q => Sys2Proof.Machine.execRbEm q s
  | .rbFl q => Sys2Proof.Machine.execRbFl q s
  | .spSend b => Sys2Proof.Machine.execSpSend b s
  | .spCommit => Sys2Proof.Machine.execSpCommit s
  | .spAvail => Sys2Proof.Machine.execSpAvail s
  | .spGet => Sys2Proof.Machine.execSpGet s
  | .spIdle => Sys2Proof.Machine.execSpIdle s
  | .fcEnc b => Sys2Proof.Machine.execFcEnc b s
  | .fcEnd => Sys2Proof.Machine.execFcEnd s
  | .fcDec b => Sys2Proof.Machine.execFcDec b s
  | .fcIdxq => Sys2Proof.Machine.execFcIdxq s
  | .fcEscq => Sys2Proof.Machine.execFcEscq s
  | .fcRdb n => Sys2Proof.Machine.execFcRdb n s
  | .ckRst => Sys2Proof.Machine.execCkRst s
  | .ckUpd b => Sys2Proof.Machine.execCkUpd b s
  | .ckGet => Sys2Proof.Machine.execCkGet s

end Sys2Proof.Machine
end

