-- ==== Sys2Proof/Machine/Step.lean ====
section
/-! DEFINITION. One step: the next agent takes one move (20 R67). -/

namespace Sys2Proof.Machine

/-- The issue of a command word: decode it and run it, or refuse it (30 R94, R98). -/
def issueWord (w : Word) (s : State) : Host.Outcome State Fault Refusal :=
  match decode w with
  | .ok i => exec i s
  | .error e => .refused (.illegalCommand e)

/-- One move of one agent. -/
def runMove (m : Move) (s : State) : Host.Outcome State Fault Refusal :=
  match m with
  | .fg =>
    match fgTurn s with
    | .issue w s' => issueWord w s'
    | .done o => o
  | .txe => isrTxe s
  | .rxc => isrRxc s
  | .take => .next (wireTake s)
  | .arrive b pick => .next (wireArrive b pick s)

/-- One step of the machine. -/
def step (s : State) : Host.Outcome State Fault Refusal :=
  runMove (nextMove s).1 (nextMove s).2

/-- The state with the opcode-table word placed where the next step issues it (log 4, 23). -/
def State.withFetchWord (s : State) (nbits w : Nat) : State := placeCommand (tableWord nbits w) s

end Sys2Proof.Machine
end

