-- ==== Sys2Proof/Safety.lean ====
section
/-! DEFINITION. What counts as a sound state: the invariants of 10_state R23, R33, R37, R41, the terms they are stated
in, and the notions of a run that the statements use. -/

namespace Sys2Proof.Machine

/-- `c(Q)`, the committed count (10_state R23). -/
def RingBuf.committed (n : Nat) (q : RingBuf) : Nat :=
  if q.write = q.read then (if q.full then n else 0) else diffN n q.write q.read

/-- `s(Q)`, the staged count (10_state R23). -/
def RingBuf.staged (n : Nat) (q : RingBuf) : Nat :=
  if q.tentative = q.write then 0 else diffN n q.tentative q.write

/-- 10_state R23 (a): the three indices are in range. -/
abbrev RingBuf.InRange (n : Nat) (q : RingBuf) : Prop :=
  q.read.toNat < n ∧ q.write.toNat < n ∧ q.tentative.toNat < n

/-- 10_state R23 (a), (b), (c), (e) on a buffer of `n` elements, with its array in canonical form and inside its
range. (d) is (b) in the words of the two counts. -/
abbrev RingBuf.Inv (n : Nat) (q : RingBuf) : Prop :=
  q.InRange n
    ∧ q.committed n + q.staged n ≤ n
    ∧ (q.full = true ↔ q.committed n + q.staged n = n)
    ∧ (q.full = true → q.tentative = q.read)
    ∧ Memory.Wf q.buf ∧ Memory.Below n q.buf

/-- Every unread byte, committed or staged, has been written (10_state R55: an element is "never read before
written"). -/
abbrev RingBuf.Backed (n : Nat) (q : RingBuf) : Prop :=
  ∀ k, k < q.committed n + q.staged n → (Memory.look q.buf ((q.read.toNat + k) % n)).isSome = true

/-- The committed bytes of a ring buffer, oldest first: the elements from `read` on. -/
def RingBuf.contents (sp : Space) (n : Nat) (q : RingBuf) : List Byte :=
  (List.range (q.committed n)).map (fun k => Memory.byteAt sp q.buf ((q.read.toNat + k) % n))

/-- The operation FG is in the middle of is one it can be in: a second byte that FC.ENC emits (43 R170), a hold on an
instance FG consumes from (30 R97). -/
abbrev State.PhaseOk (s : State) : Prop :=
  match s.fgPhase with
  | .idle => True
  | .published => True
  | .encSecond c => c = bESCEND ∨ c = bESCESC
  | .holding q => q = .inp ∨ (q = .aux ∧ s.cfg.hasAux = true)

/-- The invariants that hold at every step boundary. -/
structure State.Inv (s : State) : Prop where
  /-- 00_scope R5 -/
  cfg : s.cfg.Valid
  /-- 10_state R23 -/
  out : s.out.Inv s.cfg.nOut
  /-- 10_state R23 -/
  inp : s.inp.Inv s.cfg.nIn
  /-- 10_state R23 -/
  aux : s.aux.Inv s.cfg.nAux
  /-- 60 R206: between handler runs nothing is staged in IN. -/
  inpSettled : s.inp.tentative = s.inp.write
  /-- 10_state R33 (a) -/
  chain : s.idle = !s.txie
  /-- 10_state R33 (b) -/
  quiet : s.idle = true → s.txf = false
  /-- 10_state R33 (c) -/
  unmasked : s.im = false
  /-- 10_state R41 -/
  fcIdx : s.fcIdx.toNat ≤ s.cfg.frameCap
  /-- 20 R60: the frame buffer is in canonical form. -/
  fcWf : Memory.Wf s.fcBuf
  /-- 20 R60: and inside its range. -/
  fcBelow : Memory.Below s.cfg.frameCap s.fcBuf
  /-- 10_state R21, R37 -/
  phase : s.PhaseOk

/-- Every unread byte of every instance has been written. -/
abbrev State.Backed (s : State) : Prop :=
  s.out.Backed s.cfg.nOut ∧ s.inp.Backed s.cfg.nIn ∧ s.aux.Backed s.cfg.nAux

/-- The block is quiescent (60 R217). -/
abbrev State.Quiescent (s : State) : Prop :=
  s.fgPhase = .idle ∧ s.rxc = false ∧ s.txf = false ∧ s.idle = true

/-- FG is a producer of this instance (30 R97). -/
abbrev State.FgProduces (s : State) (q : RingId) : Prop :=
  q = .out ∨ (q = .aux ∧ s.cfg.hasAux = true)

/-- FG is the consumer of this instance (30 R97). -/
abbrev State.FgConsumes (s : State) (q : RingId) : Prop :=
  q = .inp ∨ (q = .aux ∧ s.cfg.hasAux = true)

/-- The instance exists (30 R97). -/
abbrev State.RingExists (s : State) (q : RingId) : Prop :=
  q = .aux → s.cfg.hasAux = true

/-- What is on its way to the wire: the bytes taken, the byte in `TXD` if it is still to be taken, and the committed
bytes of OUT (42 R144). -/
def State.sent (s : State) : List Byte :=
  s.wireOut ++ (if s.txf then [s.txd] else []) ++ s.out.contents (.ring .out) s.cfg.nOut

/-- Between `q` and `q'` one byte `b` has been staged on a buffer of `n` elements (41 R110): the slot at `tentative`
holds it, `tentative` has advanced, `full` says whether it met `read`, every other element and index is as before. -/
abbrev RingBuf.StagedTo (sp : Space) (n : Nat) (q q' : RingBuf) (b : Byte) : Prop :=
  q'.tentative.toNat = (q.tentative.toNat + 1) % n
    ∧ Memory.byteAt sp q'.buf q.tentative.toNat = b
    ∧ (∀ j, j ≠ q.tentative.toNat → Memory.byteAt sp q'.buf j = Memory.byteAt sp q.buf j)
    ∧ (q'.full = true ↔ q'.tentative = q.read)
    ∧ q'.read = q.read ∧ q'.write = q.write

/-- Between `q` and `q'` one byte has been popped from a buffer of `n` elements (41 R114): `read` has advanced, `full`
is clear, everything else is as before. -/
abbrev RingBuf.PoppedTo (n : Nat) (q q' : RingBuf) : Prop :=
  q'.read.toNat = (q.read.toNat + 1) % n ∧ q' = { q with read := q'.read, full := false }

/-- Between `s` and `t` the decoder has stored `v`, or dropped it at capacity (43 R174 `store`, R175). -/
abbrev State.FrameStored (s t : State) (v : Byte) : Prop :=
  if s.fcIdx.toNat < s.cfg.frameCap then
    Memory.byteAt .frame t.fcBuf s.fcIdx.toNat = v
      ∧ (∀ j, j ≠ s.fcIdx.toNat → Memory.byteAt .frame t.fcBuf j = Memory.byteAt .frame s.fcBuf j)
      ∧ t.fcIdx.toNat = s.fcIdx.toNat + 1
  else t.fcBuf = s.fcBuf ∧ t.fcIdx = s.fcIdx

/-- The operation has been answered with this `ok` bit and a data field that the spec leaves unspecified (30 R91). -/
abbrev State.Answered (t : State) (ok : Bool) : Prop := ∃ d : Half, t.resp = some (respWord ok d)

/-- No byte for the consumer, in the words of 41 R114. -/
abbrev RingBuf.Empty (q : RingBuf) : Prop := q.read = q.write ∧ q.full = false

/-- The byte operand of an operation that has one (30 R92). -/
def byteArg : Instr → Option Byte
  | .rbWt _ b => some b
  | .spSend b => some b
  | .fcEnc b => some b
  | .fcDec b => some b
  | .ckUpd b => some b
  | .rbCm _ => none
  | .rbAb _ => none
  | .rbRd _ => none
  | .rbRdw _ => none
  | .rbPk _ => none
  | .rbSz _ => none
  | .rbEm _ => none
  | .rbFl _ => none
  | .spCommit => none
  | .spAvail => none
  | .spGet => none
  | .spIdle => none
  | .fcEnd => none
  | .fcIdxq => none
  | .fcEscq => none
  | .fcRdb _ => none
  | .ckRst => none
  | .ckGet => none

/-- The number of an instance (30 R92). -/
def ringNumber : RingId → BitVec 2
  | .out => 0#2
  | .inp => 1#2
  | .aux => 2#2

/-- The operations that only read (20 R64). -/
def readOnly : Instr → Bool
  | .rbPk _ => true
  | .rbSz _ => true
  | .rbEm _ => true
  | .rbFl _ => true
  | .spAvail => true
  | .spIdle => true
  | .fcIdxq => true
  | .fcEscq => true
  | .fcRdb _ => true
  | .ckGet => true
  | .rbWt _ _ => false
  | .rbCm _ => false
  | .rbAb _ => false
  | .rbRd _ => false
  | .rbRdw _ => false
  | .spSend _ => false
  | .spCommit => false
  | .spGet => false
  | .fcEnc _ => false
  | .fcEnd => false
  | .fcDec _ => false
  | .ckRst => false
  | .ckUpd _ => false

/-- One bit of the reflected CRC with polynomial 0x8408 (44 R194). -/
def kermitBit (c : Half) : Half :=
  if c.getLsbD 0 then (c >>> 1) ^^^ 0x8408#16 else c >>> 1

/-- CRC-16/KERMIT's update by one byte (44 R194). -/
def kermitUpdate (a : Half) (b : Byte) : Half := Nat.iterate kermitBit 8 (a ^^^ byteData b)

/-- The operations one after another with no other agent between them, up to the first that stops. -/
def execAll : List Instr → State → Result
  | [], s => .next s
  | i :: is, s =>
    match exec i s with
    | .next s' => execAll is s'
    | .fault f => .fault f
    | .refused r => .refused r

end Sys2Proof.Machine
end

