-- ==== Sys2Proof/Certificates/Slice0/Obligations.lean ====
section
/-! DEFINITION. The statements for the provers. The frame of a next state `t` is written `t = { s with … }`: every
field that is not named there is as it was in `s`, whole arrays of memory among them. -/

open Sys2Proof Sys2Proof.Machine

/-! ### Command words -/

/-- 30 R90, R92, R94: the decoder reads back every operation, with every operand, that the encoder writes. -/
def Obligations.DecodeOfEncode : Prop := ∀ i : Instr, decode (encode i) = .ok i

/-- 30 R90, R92, R94: a word the decoder accepts is the encoding of what it reads, so no two words stand for one
operation. -/
def Obligations.EncodeOfDecode : Prop := ∀ (w : Word) (i : Instr), decode w = .ok i → encode i = w

/-- 30 R94, R98: a word has a meaning exactly when it selects a row of the opcode map and, in unit RB, does not name the
reserved instance 3; and the operation is of the one row that the word selects. -/
def Obligations.DecodeFollowsOpcodeMap : Prop :=
  (∀ w : Word, (∃ i, decode w = .ok i) ↔
    (∃ r ∈ opcodeMap, r.selects w = true) ∧ ¬(w.extractLsb' 26 6 = 0 ∧ w.extractLsb' 24 2 = 3))
  ∧ ∀ (w : Word) (i : Instr), decode w = .ok i →
      opcodeRow i ∈ opcodeMap ∧ ∀ r ∈ opcodeMap, (r.selects w = true ↔ r = opcodeRow i)

/-- 30 R92: how the operands lie in the word. -/
def Obligations.OperandsLieAsAssembled : Prop :=
  ∀ (w : Word) (i : Instr), decode w = .ok i →
    (∀ b, byteArg i = some b → b = w.extractLsb' 0 8 ∧ w.extractLsb' 8 8 = 0)
    ∧ (∀ n, i = .fcRdb n → n = w.extractLsb' 0 16)
    ∧ (∀ side q, i.ringUse = some (side, q) → ringNumber q = w.extractLsb' 24 2 ∧ w.extractLsb' 26 6 = 0)
    ∧ (byteArg i = none → (∀ n, i ≠ .fcRdb n) → w.extractLsb' 0 16 = 0)

/-- 30 R94 and the command words of 95 T10, P1 to P4: words of each family decode to what they stand for. -/
def Obligations.WordsOfEachFamily : Prop :=
  decode 0x02000011#32 = .ok (.rbWt .aux 0x11#8) ∧ decode 0x01030000#32 = .ok (.rbRd .inp)
  ∧ decode 0x00060000#32 = .ok (.rbSz .out) ∧ decode 0x10010000#32 = .ok .spCommit
  ∧ decode 0x200000C0#32 = .ok (.fcEnc 0xC0#8) ∧ decode 0x20050003#32 = .ok (.fcRdb 3#16)
  ∧ decode 0x3001000D#32 = .ok (.ckUpd 0x0D#8)
  ∧ decode 0x03060000#32 = .error .reservedRing ∧ decode 0x00090000#32 = .error .unknownFunction
  ∧ decode 0x00000141#32 = .error .operandHighByte ∧ decode 0x10010001#32 = .error .operandNotZero
  ∧ decode 0x04000000#32 = .error .unknownUnit

/-- 30 R91: the fields of the response word. -/
def Obligations.ResponseWordFields : Prop :=
  ∀ (ok : Bool) (data : Half), (respWord ok data).extractLsb' 17 15 = 0 ∧ (respWord ok data).getLsbD 16 = ok
    ∧ (respWord ok data).extractLsb' 0 16 = data

/-! ### The step -/

/-- 20 R67 with the MODEL'S CHOICE of log 3: the next agent is the schedule's, or a free one where the schedule is
empty. And 60 R218 with log 4: FG may issue nothing, and then its move changes nothing. -/
def Obligations.StepTakesOneMove : Prop :=
  (∀ (s : State) (m : Move) (ms : List Move), s.schedule = m :: ms →
    Sys2Proof.Machine.step s = runMove m { s with schedule := ms })
  ∧ (∀ s : State, s.schedule = [] →
    Sys2Proof.Machine.step s = runMove (Config.freeMove s.draws) { s with draws := s.draws + 1 })
  ∧ ∀ (s : State) (ms : List Move), s.schedule = .fg :: ms → s.fgPhase = .idle → s.cmds = [] →
    Sys2Proof.Machine.step s = .next { s with schedule := ms }

/-- 30 R90: FG's move, with nothing in progress and a word to issue, runs the operation the word stands for; the word
leaves FG's list and the response is still to come (log 4, 5). -/
def Obligations.StepRunsTheDecodedOperation : Prop :=
  ∀ (s : State) (ms : List Move) (w : Word) (ws : List Word) (i : Instr),
    s.schedule = .fg :: ms → s.fgPhase = .idle → s.cmds = w :: ws → decode w = .ok i →
      Sys2Proof.Machine.step s = exec i { s with schedule := ms, cmds := ws, resp := none }

/-- 30 R98: a word with no meaning is refused. -/
def Obligations.StepRefusesWordWithNoMeaning : Prop :=
  ∀ (s : State) (ms : List Move) (w : Word) (ws : List Word) (e : DecodeError),
    s.schedule = .fg :: ms → s.fgPhase = .idle → s.cmds = w :: ws → decode w = .error e →
      Sys2Proof.Machine.step s = .refused (.illegalCommand e)

/-! ### Unit RB -/

/-- 41 R110: RB.WT, on a buffer that has room and on a full one (60 R201 BACKPRESSURE). -/
def Obligations.RbWtStagesOneByte : Prop :=
  ∀ (s : State) (q : RingId) (b : Byte), s.cfg.Valid → s.FgProduces q → (s.ring q).tentative.toNat < s.cap q →
    ∃ t, exec (.rbWt q b) s = .next t
      ∧ ((s.ring q).full = false → (s.ring q).StagedTo (.ring q) (s.cap q) (t.ring q) b ∧ t.Answered true)
      ∧ ((s.ring q).full = true → t.ring q = s.ring q ∧ t.Answered false)
      ∧ t = { s.setRing q (t.ring q) with resp := t.resp, draws := t.draws }

/-- 41 R112: RB.CM. -/
def Obligations.RbCmPublishes : Prop :=
  ∀ (s : State) (q : RingId), s.FgProduces q →
    ∃ t, exec (.rbCm q) s = .next t ∧ t.ring q = { s.ring q with write := (s.ring q).tentative } ∧ t.Answered true
      ∧ t = { s.setRing q (t.ring q) with resp := t.resp, draws := t.draws }

/-- 41 R113: RB.AB, with something to discard and with nothing. -/
def Obligations.RbAbDiscards : Prop :=
  ∀ (s : State) (q : RingId), s.FgProduces q →
    ∃ t, exec (.rbAb q) s = .next t
      ∧ ((s.ring q).tentative ≠ (s.ring q).write →
          t.ring q = { s.ring q with tentative := (s.ring q).write, full := false })
      ∧ ((s.ring q).tentative = (s.ring q).write → t.ring q = s.ring q)
      ∧ t.Answered true ∧ t = { s.setRing q (t.ring q) with resp := t.resp, draws := t.draws }

/-- 41 R114: RB.RD, where there is a byte and where there is none (60 R201 EMPTY). -/
def Obligations.RbRdPops : Prop :=
  ∀ (s : State) (q : RingId), s.cfg.Valid → s.FgConsumes q → (s.ring q).read.toNat < s.cap q →
    (¬(s.ring q).Empty → ∃ t, exec (.rbRd q) s = .next t ∧ (s.ring q).PoppedTo (s.cap q) (t.ring q)
      ∧ t = { s.setRing q (t.ring q) with
          resp := some (respWord true ((Memory.byteAt (.ring q) (s.ring q).buf (s.ring q).read.toNat).setWidth 16)) })
    ∧ ((s.ring q).Empty → ∃ t, exec (.rbRd q) s = .next t ∧ t.Answered false
      ∧ t = { s with resp := t.resp, draws := t.draws })

/-- 41 R115 with 92 D7: RB.PK, where there is a byte and where there is none. That RB.PK is accepted with this meaning
is log 25 (DEDUCED), since 93 U9 lets a model refuse it. -/
def Obligations.RbPkLooks : Prop :=
  ∀ (s : State) (q : RingId), s.FgConsumes q → (s.ring q).read.toNat < s.cap q →
    (¬(s.ring q).Empty → exec (.rbPk q) s = .next { s with
      resp := some (respWord true ((Memory.byteAt (.ring q) (s.ring q).buf (s.ring q).read.toNat).setWidth 16)) })
    ∧ ((s.ring q).Empty → ∃ t, exec (.rbPk q) s = .next t ∧ t.Answered false
      ∧ t = { s with resp := t.resp, draws := t.draws })

/-- 41 R122: RB.RDW holds FG while the buffer is empty, at its issue and at every later move of FG, and gives no
response (the polls that change nothing are the MODEL'S form of the busy wait, log 10). -/
def Obligations.RbRdwHoldsWhileEmpty : Prop :=
  ∀ (s : State) (q : RingId), (s.ring q).Empty →
    (s.FgConsumes q → exec (.rbRdw q) s = .next { s with fgPhase := .holding q })
    ∧ ∀ ms, s.fgPhase = .holding q → s.schedule = .fg :: ms →
        Sys2Proof.Machine.step s = .next { s with schedule := ms }

/-- 41 R122: RB.RDW reads as soon as there is a byte, as one step: at its issue, or at the move that ends the hold. -/
def Obligations.RbRdwReadsWhenThereIsAByte : Prop :=
  ∀ (s : State) (q : RingId), s.cfg.Valid → (s.ring q).read.toNat < s.cap q → ¬(s.ring q).Empty →
    (s.FgConsumes q → ∃ t, exec (.rbRdw q) s = .next t ∧ (s.ring q).PoppedTo (s.cap q) (t.ring q)
      ∧ t = { s.setRing q (t.ring q) with
          fgPhase := .idle
          resp := some (respWord true ((Memory.byteAt (.ring q) (s.ring q).buf (s.ring q).read.toNat).setWidth 16)) })
    ∧ ∀ ms, s.fgPhase = .holding q → s.schedule = .fg :: ms →
        ∃ t, Sys2Proof.Machine.step s = .next t ∧ (s.ring q).PoppedTo (s.cap q) (t.ring q)
          ∧ t = { s.setRing q (t.ring q) with
              schedule := ms
              fgPhase := .idle
              resp := some
                (respWord true ((Memory.byteAt (.ring q) (s.ring q).buf (s.ring q).read.toNat).setWidth 16)) }

/-- 41 R116, R117, R118: RB.SZ, RB.EM, RB.FL on every existing instance; the difference is the mathematical remainder
(00_scope R10, 41 R125). -/
def Obligations.RbStatusAnswers : Prop :=
  ∀ (s : State) (q : RingId), s.cfg.Valid → s.RingExists q →
    (∃ d : Half, exec (.rbSz q) s = .next { s with resp := some (respWord true d) }
      ∧ ((s.ring q).full = true → d.toNat = s.cap q)
      ∧ ((s.ring q).full = false →
          (d.toNat : Int) = ((s.ring q).write.toNat - (s.ring q).read.toNat : Int) % (s.cap q : Int)))
    ∧ exec (.rbEm q) s =
        .next { s with resp := some (respWord true (if (s.ring q).read = (s.ring q).write ∧ (s.ring q).full = false
          then 1#16 else 0#16)) }
    ∧ exec (.rbFl q) s =
        .next { s with resp := some (respWord true (if (s.ring q).full = true then 1#16 else 0#16)) }

/-- 41 R117, R118: empty exactly when `read()` fails and exactly when `size()` is 0; full exactly when
`write_tentative` fails and exactly when `size()` is N. -/
def Obligations.StatusAgreesWithReadAndWrite : Prop :=
  ∀ (sp : Space) (n : Nat) (q : RingBuf) (b : Byte), q.InRange n →
    (q.isEmpty = true ↔ q.size n = 0) ∧ (q.isEmpty = true ↔ ∃ q', q.pop sp n = .ok (none, q'))
    ∧ (q.full = true ↔ q.size n = n) ∧ (q.full = true ↔ ∃ q', q.writeTentative sp n b = .ok (false, q'))

/-- 30 R97, R98: what FG may not issue on an instance is refused, under a name that says why. -/
def Obligations.WrongSideIsRefused : Prop :=
  ∀ (s : State) (b : Byte),
    (∀ i ∈ [Instr.rbWt .inp b, .rbCm .inp, .rbAb .inp], exec i s = .refused (.wrongSide .inp))
    ∧ (∀ i ∈ [Instr.rbRd .out, .rbRdw .out, .rbPk .out], exec i s = .refused (.wrongSide .out))
    ∧ (s.cfg.hasAux = false → ∀ i side, Instr.ringUse i = some (side, .aux) → exec i s = .refused .auxAbsent)

/-- 41 R126, on the instance where FG is both sides: a transaction of at most N bytes and a commit, from a buffer with
nothing in it, is read back in order, and one more read fails. -/
def Obligations.CommittedBytesComeBackInOrder : Prop :=
  ∀ (s : State) (bs : List Byte), s.cfg.Valid → s.cfg.hasAux = true → s.aux.InRange s.cfg.nAux → s.aux.Empty →
    s.aux.tentative = s.aux.write → bs.length ≤ s.cfg.nAux →
    (∀ k (h : k < bs.length), ∃ t,
      execAll (bs.map (.rbWt .aux) ++ [.rbCm .aux] ++ List.replicate (k + 1) (.rbRd .aux)) s = .next t
        ∧ t.resp = some (respWord true ((bs[k]).setWidth 16)))
    ∧ ∃ t, execAll (bs.map (.rbWt .aux) ++ [.rbCm .aux] ++ List.replicate (bs.length + 1) (.rbRd .aux)) s = .next t
        ∧ t.Answered false

/-- 41 R127: an abort after any number of tentative writes restores `size()` and `empty()`, but where the transaction
fills an empty buffer. -/
def Obligations.AbortRestoresSizeAndEmpty : Prop :=
  ∀ (s : State) (q : RingId) (bs : List Byte), s.Inv → s.FgProduces q → (s.ring q).tentative = (s.ring q).write →
    (bs.length < s.cap q ∨ ¬(s.ring q).Empty) →
    ∃ t, execAll (bs.map (.rbWt q) ++ [.rbAb q]) s = .next t
      ∧ (t.ring q).size (s.cap q) = (s.ring q).size (s.cap q) ∧ (t.ring q).isEmpty = (s.ring q).isEmpty

/-- 10_state R24, 41 R113 (c), 70 R241: N bytes staged into an empty buffer are there for the consumer with no commit,
and an abort leaves them. -/
def Obligations.FullTransactionIsVisibleUncommitted : Prop :=
  ∀ (s : State) (q : RingId) (bs : List Byte), s.Inv → s.FgProduces q → (s.ring q).tentative = (s.ring q).write →
    (s.ring q).Empty → bs.length = s.cap q →
    ∃ t u, execAll (bs.map (.rbWt q)) s = .next t ∧ exec (.rbAb q) t = .next u ∧ u.ring q = t.ring q
      ∧ (t.ring q).size (s.cap q) = s.cap q ∧ (t.ring q).contents (.ring q) (s.cap q) = bs

/-! ### Unit SP -/

/-- 42 R140: SP.SEND, staged or refused for want of room. -/
def Obligations.SpSendStages : Prop :=
  ∀ (s : State) (b : Byte), s.cfg.Valid → s.out.tentative.toNat < s.cfg.nOut →
    ∃ t, exec (.spSend b) s = .next t
      ∧ (s.out.full = false → s.out.StagedTo (.ring .out) s.cfg.nOut t.out b ∧ t.Answered true)
      ∧ (s.out.full = true → t.out = s.out ∧ t.Answered false)
      ∧ t = { s with out := t.out, resp := t.resp, draws := t.draws }

/-- 42 R142: SP.COMMIT step 1. -/
def Obligations.SpCommitStepOnePublishes : Prop :=
  ∀ s : State, exec .spCommit s = .next { s with
    out := { s.out with write := s.out.tentative }
    fgPhase := .published }

/-- 42 R143: SP.COMMIT step 2 where the port is idle and OUT holds a byte; FG's next move is that step. -/
def Obligations.SpCommitStepTwoStartsTheChain : Prop :=
  ∀ (s : State) (ms : List Move), s.cfg.Valid → s.out.read.toNat < s.cfg.nOut → s.fgPhase = .published →
    s.schedule = .fg :: ms → s.idle = true → ¬s.out.Empty →
    ∃ t, Sys2Proof.Machine.step s = .next t ∧ s.out.PoppedTo s.cfg.nOut t.out ∧ t.Answered true
      ∧ t = { s with
          schedule := ms
          out := t.out
          idle := false
          txie := true
          txd := Memory.byteAt (.ring .out) s.out.buf s.out.read.toNat
          txf := true
          im := false
          fgPhase := .idle
          resp := t.resp
          draws := t.draws }

/-- 42 R143: SP.COMMIT step 2 where the chain runs, or where OUT holds no byte. -/
def Obligations.SpCommitStepTwoLeavesTheChain : Prop :=
  ∀ (s : State) (ms : List Move), s.fgPhase = .published → s.schedule = .fg :: ms → (s.idle = false ∨ s.out.Empty) →
    ∃ t, Sys2Proof.Machine.step s = .next t ∧ t.Answered true
      ∧ t = { s with schedule := ms, im := false, fgPhase := .idle, resp := t.resp, draws := t.draws }

/-- 42 R144 (a): after SP.COMMIT returns, a chain is running or OUT holds no committed byte. -/
def Obligations.AfterSpCommitChainRunsOrOutIsEmpty : Prop :=
  ∀ (s t : State) (ms : List Move), s.Inv → s.fgPhase = .published → s.schedule = .fg :: ms →
    Sys2Proof.Machine.step s = .next t → t.idle = false ∨ t.out.committed t.cfg.nOut = 0

/-- 42 R145, R147: SP.AVAIL and SP.IDLE. -/
def Obligations.SpAvailSpIdleAnswer : Prop :=
  ∀ s : State,
    exec .spAvail s = .next { s with resp := some (respWord true (if s.inp.read = s.inp.write ∧ s.inp.full = false
      then 0#16 else 1#16)) }
    ∧ exec .spIdle s = .next { s with resp := some (respWord true (if s.idle = true then 1#16 else 0#16)) }

/-- 42 R146: SP.GET, with a byte and without. -/
def Obligations.SpGetPopsIn : Prop :=
  ∀ s : State, s.cfg.Valid → s.inp.read.toNat < s.cfg.nIn →
    (¬s.inp.Empty → ∃ t, exec .spGet s = .next t ∧ s.inp.PoppedTo s.cfg.nIn t.inp
      ∧ t = { s with
          inp := t.inp
          resp := some (respWord true ((Memory.byteAt (.ring .inp) s.inp.buf s.inp.read.toNat).setWidth 16)) })
    ∧ (s.inp.Empty → ∃ t, exec .spGet s = .next t ∧ t.Answered false
      ∧ t = { s with resp := t.resp, draws := t.draws })

/-! ### Unit FC -/

/-- 30 R81: `slip_enc`, and that it never puts an END on the wire. -/
def Obligations.SlipEncTable : Prop :=
  slipEnc 0xC0#8 = [0xDB#8, 0xDC#8] ∧ slipEnc 0xDB#8 = [0xDB#8, 0xDD#8]
  ∧ (∀ b : Byte, b ≠ 0xC0#8 → b ≠ 0xDB#8 → slipEnc b = [b]) ∧ ∀ b : Byte, 0xC0#8 ∉ slipEnc b

/-- 43 R170, R172: FC.ENC of a byte that is sent verbatim, which fails where OUT is full (92 D22), and FC.END, which
sends a raw END. -/
def Obligations.FcEncVerbatimAndFcEnd : Prop :=
  ∀ (s : State) (i : Instr) (b : Byte), s.cfg.Valid → s.out.tentative.toNat < s.cfg.nOut →
    (i = .fcEnc b ∧ b ≠ 0xC0#8 ∧ b ≠ 0xDB#8) ∨ (i = .fcEnd ∧ b = 0xC0#8) →
    ∃ t, exec i s = .next t
      ∧ (s.out.full = false → s.out.StagedTo (.ring .out) s.cfg.nOut t.out b ∧ t.Answered true)
      ∧ (s.out.full = true → t.out = s.out ∧ t.Answered false)
      ∧ t = { s with out := t.out, resp := t.resp, draws := t.draws }

/-- 43 R170: FC.ENC of END or ESC, its first atomic step: the ESC is staged and the second byte is still to come
(where the model holds it is log 9), or the operation ends with `ok = 0`. -/
def Obligations.FcEncEscapedFirstStep : Prop :=
  ∀ (s : State) (b : Byte), s.cfg.Valid → s.out.tentative.toNat < s.cfg.nOut → (b = 0xC0#8 ∨ b = 0xDB#8) →
    ∃ t, exec (.fcEnc b) s = .next t
      ∧ (s.out.full = false → s.out.StagedTo (.ring .out) s.cfg.nOut t.out 0xDB#8
          ∧ t = { s with out := t.out, fgPhase := .encSecond (if b = 0xC0#8 then 0xDC#8 else 0xDD#8) })
      ∧ (s.out.full = true → t.Answered false ∧ t = { s with resp := t.resp, draws := t.draws })

/-- 43 R170: the second atomic step of FC.ENC, which is FG's next move: the second byte is staged, or the operation
ends with `ok = 0` and the lone ESC stays staged. That FG's next move is this step is log 9's. -/
def Obligations.FcEncEscapedSecondStep : Prop :=
  ∀ (s : State) (c : Byte) (ms : List Move), s.cfg.Valid → s.out.tentative.toNat < s.cfg.nOut →
    s.fgPhase = .encSecond c → s.schedule = .fg :: ms →
    ∃ t, Sys2Proof.Machine.step s = .next t
      ∧ (s.out.full = false → s.out.StagedTo (.ring .out) s.cfg.nOut t.out c ∧ t.Answered true)
      ∧ (s.out.full = true → t.out = s.out ∧ t.Answered false)
      ∧ t = { s with schedule := ms, out := t.out, fgPhase := .idle, resp := t.resp, draws := t.draws }

/-- 43 R174, R175: the four branches of FC.DEC, with a store that drops the byte at capacity. That `ok = 0` comes with
data 0 is R174's and not 93 U2's (log 11). -/
def Obligations.FcDecBranches : Prop :=
  ∀ (s : State) (b : Byte), s.cfg.Valid → s.fcIdx.toNat ≤ s.cfg.frameCap →
    ∃ t, exec (.fcDec b) s = .next t
      ∧ (s.fcEsc = true →
          s.FrameStored t (if b = 0xDC#8 then 0xC0#8 else if b = 0xDD#8 then 0xDB#8 else b)
          ∧ t = { s with
              fcEsc := false, fcBuf := t.fcBuf, fcIdx := t.fcIdx, resp := some (respWord false 0#16) })
      ∧ (s.fcEsc = false → b = 0xDB#8 → t = { s with fcEsc := true, resp := some (respWord false 0#16) })
      ∧ (s.fcEsc = false → b = 0xC0#8 → t = { s with fcIdx := 0#16, resp := some (respWord true s.fcIdx) })
      ∧ (s.fcEsc = false → b ≠ 0xDB#8 → b ≠ 0xC0#8 →
          s.FrameStored t b
          ∧ t = { s with fcBuf := t.fcBuf, fcIdx := t.fcIdx, resp := some (respWord false 0#16) })

/-- 43 R177, R178, R179: FC.IDXQ, FC.ESCQ and FC.RDB. That FC.IDXQ's value is at most F is R41's invariant, in
`State.Inv`. -/
def Obligations.FcReadBackAnswers : Prop :=
  ∀ (s : State) (n : Half),
    exec .fcIdxq s = .next { s with resp := some (respWord true s.fcIdx) }
    ∧ exec .fcEscq s = .next { s with resp := some (respWord true (if s.fcEsc = true then 1#16 else 0#16)) }
    ∧ (n.toNat < s.cfg.frameCap → exec (.fcRdb n) s =
        .next { s with resp := some (respWord true ((Memory.byteAt .frame s.fcBuf n.toNat).setWidth 16)) })
    ∧ (s.cfg.frameCap ≤ n.toNat → ∃ t, exec (.fcRdb n) s = .next t ∧ t.Answered false
        ∧ t = { s with resp := t.resp, draws := t.draws })

/-- 43 R180: decoding the encoding of any byte string, then an END, gives the string (its first F bytes) as one frame,
and no frame before that. R180 says `ok = 0` for the bytes before; that the data is then 0 is R174's (log 11). -/
def Obligations.SlipRoundTrip : Prop :=
  ∀ (s : State) (p : List Byte), s.cfg.Valid → s.fcIdx = 0#16 → s.fcEsc = false →
    (∀ n, 0 < n → n ≤ (p.flatMap slipEnc).length → ∃ u,
      execAll (((p.flatMap slipEnc).take n).map .fcDec) s = .next u ∧ u.resp = some (respWord false 0#16))
    ∧ ∃ t, execAll ((p.flatMap slipEnc ++ [0xC0#8]).map .fcDec) s = .next t
        ∧ t.resp = some (respWord true (BitVec.ofNat 16 (min p.length s.cfg.frameCap)))
        ∧ ∀ k (h : k < p.length), k < s.cfg.frameCap → Memory.byteAt .frame t.fcBuf k = p[k]

/-! ### Unit CK -/

/-- 44 R190, R193: CK.RST, to the parameter CK_INIT (log 16), and CK.GET. -/
def Obligations.CkRstCkGet : Prop :=
  ∀ s : State,
    (∃ t, exec .ckRst s = .next t ∧ t.Answered true
      ∧ t = { s with ckAcc := s.cfg.ckInit, resp := t.resp, draws := t.draws })
    ∧ exec .ckGet s = .next { s with resp := some (respWord true s.ckAcc) }

/-- 44 R191, in the numbers and the truncation of 00_scope R10: the five statements of CK.UPD. -/
def Obligations.CkUpdFiveStatements : Prop :=
  ∀ (s : State) (b : Byte),
    let a1 := s.ckAcc.toNat ^^^ b.toNat
    let a2 := a1 % 256 * 256 + a1 / 256
    let a3 := a2 ^^^ ((a2 &&& 0xFF00) <<< 4) % 65536
    let a4 := a3 ^^^ ((a3 >>> 8) >>> 4)
    let a5 := a4 ^^^ ((a4 &&& 0xFF00) >>> 5)
    ∃ t, exec (.ckUpd b) s = .next t ∧ t.ckAcc.toNat = a5 ∧ t.Answered true
      ∧ t = { s with ckAcc := t.ckAcc, resp := t.resp, draws := t.draws }

/-- 44 R194: the update is linear over exclusive-or. -/
def Obligations.CkUpdateIsLinear : Prop :=
  ∀ (x y : Half) (b d : Byte), ckUpdate (x ^^^ y) (b ^^^ d) = ckUpdate x b ^^^ ckUpdate y d

/-- 44 R194: the update is that of CRC-16/KERMIT (polynomial 0x8408, reflected), which the spec has from general
knowledge. -/
def Obligations.CkUpdateIsKermit : Prop := ∀ (a : Half) (b : Byte), ckUpdate a b = kermitUpdate a b

/-! ### The handlers and the wire -/

/-- 60 R205: ISR.TXE with a byte in OUT sends it, and with OUT empty stops the chain. -/
def Obligations.IsrTxeSendsOrStops : Prop :=
  ∀ (s : State) (ms : List Move), s.cfg.Valid → s.out.read.toNat < s.cfg.nOut → s.schedule = .txe :: ms →
    s.txie = true → s.txf = false → s.im = false →
    (¬s.out.Empty → ∃ t, Sys2Proof.Machine.step s = .next t ∧ s.out.PoppedTo s.cfg.nOut t.out
      ∧ t = { s with
          schedule := ms
          out := t.out
          txd := Memory.byteAt (.ring .out) s.out.buf s.out.read.toNat
          txf := true })
    ∧ (s.out.Empty → Sys2Proof.Machine.step s = .next { s with schedule := ms, txie := false, idle := true })

/-- 60 R206: ISR.RXC stages and commits the byte into IN; with IN full the byte is lost (R201 INPUT OVERFLOW). -/
def Obligations.IsrRxcStagesAndCommits : Prop :=
  ∀ (s : State) (ms : List Move), s.cfg.Valid → s.inp.tentative.toNat < s.cfg.nIn → s.inp.tentative = s.inp.write →
    s.schedule = .rxc :: ms → s.rxc = true → s.im = false →
    (s.inp.full = false → ∃ t, Sys2Proof.Machine.step s = .next t
      ∧ s.inp.StagedTo (.ring .inp) s.cfg.nIn { t.inp with write := s.inp.write } s.rxd
      ∧ t.inp.write = t.inp.tentative ∧ t = { s with schedule := ms, rxc := false, inp := t.inp })
    ∧ (s.inp.full = true → Sys2Proof.Machine.step s = .next { s with schedule := ms, rxc := false })

/-- 60 R203: a handler has a step exactly under its condition and enable; otherwise its move changes nothing (that the
move is then a stutter is the MODEL'S CHOICE, log 3). -/
def Obligations.HandlersRunOnlyWhenEnabled : Prop :=
  ∀ (s : State) (ms : List Move),
    (s.schedule = .txe :: ms → ¬(s.txie = true ∧ s.txf = false ∧ s.im = false) →
      Sys2Proof.Machine.step s = .next { s with schedule := ms })
    ∧ (s.schedule = .rxc :: ms → ¬(s.rxc = true ∧ s.im = false) →
      Sys2Proof.Machine.step s = .next { s with schedule := ms })

/-- 60 R207: both handlers enabled, the two orders reach the same state. -/
def Obligations.HandlersCommute : Prop :=
  ∀ (s : State), s.Inv → s.txeEnabled = true → s.rxcEnabled = true →
    ∃ a b t, isrTxe s = .next a ∧ isrRxc s = .next b ∧ isrRxc a = .next t ∧ isrTxe b = .next t
      ∧ a.rxcEnabled = true ∧ b.txeEnabled = true

/-- 60 R210, R211: WIRE.TAKE, and WIRE.ARRIVE with RXC = 0 and, for every value of RX_OVERRUN, with RXC = 1
(that a move which is not enabled changes nothing is the MODEL'S CHOICE, log 3; `pick` is log 21). -/
def Obligations.WireTakesAndArrives : Prop :=
  ∀ (s : State) (ms : List Move),
    (s.schedule = .take :: ms →
      (s.txf = true →
        Sys2Proof.Machine.step s = .next { s with schedule := ms, wireOut := s.wireOut ++ [s.txd], txf := false })
      ∧ (s.txf = false → Sys2Proof.Machine.step s = .next { s with schedule := ms }))
    ∧ ∀ (b : Byte) (pick : OverrunPick), s.schedule = .arrive b pick :: ms →
      (s.rxc = false → Sys2Proof.Machine.step s =
        .next { s with schedule := ms, wireIn := s.wireIn ++ [b], rxd := b, rxc := true })
      ∧ (s.rxc = true → s.cfg.rxOverrun = .forbidden → Sys2Proof.Machine.step s = .next { s with schedule := ms })
      ∧ (s.rxc = true → (s.cfg.rxOverrun = .dropNew ∨ s.cfg.rxOverrun = .either ∧ pick = .dropNew) →
        Sys2Proof.Machine.step s = .next { s with schedule := ms, wireIn := s.wireIn ++ [b] })
      ∧ (s.rxc = true → (s.cfg.rxOverrun = .dropOld ∨ s.cfg.rxOverrun = .either ∧ pick = .dropOld) →
        Sys2Proof.Machine.step s = .next { s with schedule := ms, wireIn := s.wireIn ++ [b], rxd := b })

/-! ### Rules of the whole machine -/

/-- 10_state R55, 70 R231: the values the spec gives for reset, for all parameters; the quiescent block. The
parameters of `State.reset` are the MODEL'S CHOICE where the spec leaves them open (log 2). -/
def Obligations.ResetValues : Prop :=
  State.reset = State.resetFor resetConfig ∧ resetConfig.Valid
  ∧ ∀ c : Config, (State.resetFor c).cfg = c
    ∧ (∀ q, ((State.resetFor c).ring q).read = 0 ∧ ((State.resetFor c).ring q).write = 0
        ∧ ((State.resetFor c).ring q).tentative = 0 ∧ ((State.resetFor c).ring q).full = false
        ∧ ((State.resetFor c).ring q).isEmpty = true ∧ ((State.resetFor c).ring q).size (c.cap q) = 0)
    ∧ (State.resetFor c).idle = true ∧ (State.resetFor c).txie = false ∧ (State.resetFor c).txf = false
    ∧ (State.resetFor c).rxc = false ∧ (State.resetFor c).im = false ∧ (State.resetFor c).commitPhase = .none
    ∧ (State.resetFor c).fcIdx = 0 ∧ (State.resetFor c).fcEsc = false ∧ (State.resetFor c).wireOut = []
    ∧ (State.resetFor c).wireIn = [] ∧ (State.resetFor c).Quiescent

/-- 10_state R23, R33, R41: the invariants hold after reset, whatever the parameters. -/
def Obligations.InvariantsHoldAtReset : Prop :=
  ∀ c : Config, c.Valid → (State.resetFor c).Inv ∧ (State.resetFor c).Backed

/-- 10_state R23, R33, R37, R41, 60 R206: every step keeps the invariants. -/
def Obligations.StepKeepsInvariants : Prop :=
  ∀ s t : State, s.Inv → Sys2Proof.Machine.step s = .next t → t.Inv

/-- 10_state R55: every step keeps the unread bytes of every buffer written, so no element is read before it is
written. -/
def Obligations.StepKeepsUnreadBytesWritten : Prop :=
  ∀ s t : State, s.Inv → s.Backed → Sys2Proof.Machine.step s = .next t → t.Backed

/-- 20 R62: under the invariants no access is out of range, so no step faults. -/
def Obligations.StepNeverFaults : Prop :=
  ∀ (s : State) (f : Fault), s.Inv → Sys2Proof.Machine.step s ≠ .fault f

/-- 30 R97, R98, 60 R200: under the invariants an operation is refused exactly when it is off its side, and otherwise it
runs. -/
def Obligations.AcceptedOperationsRun : Prop :=
  ∀ (s : State) (i : Instr), s.Inv →
    (i.wellFormed s.cfg.hasAux = true → ∃ t, exec i s = .next t)
    ∧ (i.wellFormed s.cfg.hasAux = false → ∃ r, exec i s = .refused r)

/-- 20 R68 (c), 10_state R25: ownership. No handler and no operation of the consumer writes `write` or `tentative`; no
producer writes `read`. FG is OUT's consumer inside SP.COMMIT step 2 (10_state R25). -/
def Obligations.OwnersOfTheIndices : Prop :=
  ∀ (s t : State) (m : Move) (ms : List Move), s.PhaseOk → s.schedule = m :: ms → Sys2Proof.Machine.step s = .next t →
    (m ≠ .fg → t.out.write = s.out.write ∧ t.out.tentative = s.out.tentative ∧ t.aux = s.aux)
    ∧ (m ≠ .rxc → t.inp.write = s.inp.write ∧ t.inp.tentative = s.inp.tentative ∧ t.inp.buf = s.inp.buf)
    ∧ (m ≠ .fg → t.inp.read = s.inp.read)
    ∧ (m ≠ .txe → ¬(m = .fg ∧ s.fgPhase = .published) → t.out.read = s.out.read)

/-- 10_state R31, R32: only SP.COMMIT step 2 clears `idle` and sets `TXIE`, only ISR.TXE on an empty OUT does the
reverse. -/
def Obligations.OnlyKickAndHandlerMoveIdle : Prop :=
  ∀ (s t : State) (m : Move) (ms : List Move), s.schedule = m :: ms → Sys2Proof.Machine.step s = .next t →
    ((s.idle = true ∧ t.idle = false) ∨ (s.txie = false ∧ t.txie = true) → m = .fg ∧ s.fgPhase = .published)
    ∧ ((s.idle = false ∧ t.idle = true) ∨ (s.txie = true ∧ t.txie = false) → m = .txe ∧ s.out.Empty)

/-- 10_state R37, R45, 20 R63, 43, 44, and what the steps of 60 R205, R206, R210, R211 write: the codec, the checksum,
FG's sub-state, words and response (the MODEL'S form of the command port, log 4, 5) are touched by no other agent; and
`exec` of an operation but CK.RST and CK.UPD leaves CK.acc. FG's second steps are not `exec`: that they leave it is in
the statements about them. -/
def Obligations.CodecAndChecksumBelongToFg : Prop :=
  (∀ (s t : State) (m : Move) (ms : List Move), s.schedule = m :: ms → m ≠ .fg → Sys2Proof.Machine.step s = .next t →
    t.ckAcc = s.ckAcc ∧ t.fcBuf = s.fcBuf ∧ t.fcIdx = s.fcIdx ∧ t.fcEsc = s.fcEsc ∧ t.fgPhase = s.fgPhase
      ∧ t.cmds = s.cmds ∧ t.resp = s.resp)
  ∧ ∀ (s t : State) (i : Instr), exec i s = .next t → i ≠ .ckRst → (∀ b, i ≠ .ckUpd b) → t.ckAcc = s.ckAcc

/-- 20 R64: the read-only operations have no side effect but their response. -/
def Obligations.ReadOnlyOperationsHaveNoSideEffect : Prop :=
  ∀ (s t : State) (i : Instr), readOnly i = true → exec i s = .next t →
    t = { s with resp := t.resp, draws := t.draws }

/-- 00_scope R5, 10_state R20: the parameters are constant (log 1). -/
def Obligations.ParametersNeverChange : Prop :=
  ∀ s t : State, Sys2Proof.Machine.step s = .next t → t.cfg = s.cfg

/-- 60 R217: in a quiescent state neither handler nor WIRE.TAKE does anything (the move of one that is not enabled is
a stutter, log 3). -/
def Obligations.QuiescentBlockIsStill : Prop :=
  ∀ (s : State) (m : Move) (ms : List Move), s.Inv → s.Quiescent → m = .txe ∨ m = .rxc ∨ m = .take →
    s.schedule = m :: ms → Sys2Proof.Machine.step s = .next { s with schedule := ms }

/-- 70 R251: no move but FG's own makes IN empty again or OUT full. -/
def Obligations.AvailAndRoomAreStable : Prop :=
  ∀ (s t : State) (m : Move) (ms : List Move), s.Inv → s.schedule = m :: ms → m ≠ .fg →
    Sys2Proof.Machine.step s = .next t →
    (s.inp.isEmpty = false → t.inp.isEmpty = false) ∧ (s.out.full = false → t.out.full = false)

/-- 42 R144 (b): the two steps that send keep the order of the bytes and lose none: what has reached the wire, then
`TXD` if it is still to be taken, then the committed bytes of OUT, is the same before and after. -/
def Obligations.TransmitChainKeepsTheBytes : Prop :=
  ∀ (s t : State) (m : Move) (ms : List Move), s.Inv → s.schedule = m :: ms →
    m = .txe ∨ m = .take ∨ (m = .fg ∧ s.fgPhase = .published) → Sys2Proof.Machine.step s = .next t → t.sent = s.sent

/-- 60 R216, in the bounded form of a schedule that lets the wire and the handler take turns: every committed byte
reaches the wire, in order, and the port becomes idle. -/
def Obligations.ChainDrainsOut : Prop :=
  ∀ (s : State) (n : Nat) (ms : List Move), s.Inv → s.idle = false → n = s.out.committed s.cfg.nOut →
    s.schedule = (List.replicate (n + 1) [Move.take, Move.txe]).flatten ++ ms →
    ∃ t, Host.Core.run Sys2Proof.core (2 * (n + 1)) s = .next t ∧ t.wireOut = s.sent ∧ t.idle = true
      ∧ t.out.committed t.cfg.nOut = 0 ∧ t.schedule = ms
end

