-- ==== Sys2Proof/Laws/Memory.lean ====
section
/-! SUPPORT. The laws of the element arrays: a read after a write, and the canonical form, which every write keeps. -/

namespace Sys2Proof.Machine

theorem look_store_self (m : Memory) (i : Nat) (b : Byte) : Memory.look (Memory.store m i b) i = some b := by
  induction m with
  | nil => simp [Memory.store, Memory.look]
  | cons c m ih =>
    obtain ⟨a, v⟩ := c
    unfold Memory.store
    split
    · simp [Memory.look]
    · split
      · simp [Memory.look]
      · rename_i h _
        simp [Memory.look, ih, show ¬a = i by omega]

theorem look_store_of_ne (m : Memory) {i j : Nat} (b : Byte) (h : j ≠ i) :
    Memory.look (Memory.store m i b) j = Memory.look m j := by
  induction m with
  | nil => simp [Memory.store, Memory.look, h.symm]
  | cons c m ih =>
    obtain ⟨a, v⟩ := c
    unfold Memory.store
    split
    · simp [Memory.look, h.symm]
    · split
      · rename_i _ e
        subst e
        simp [Memory.look, h.symm]
      · simp only [Memory.look]
        split
        · rfl
        · exact ih

theorem mem_store {m : Memory} {i : Nat} {b : Byte} {c : Host.Cell} (h : c ∈ Memory.store m i b) :
    c = (i, b) ∨ c ∈ m := by
  induction m with
  | nil => simpa [Memory.store] using h
  | cons d m ih =>
    obtain ⟨a, v⟩ := d
    unfold Memory.store at h
    split at h
    · simpa using h
    · split at h
      · rcases List.mem_cons.mp h with h | h
        · exact .inl h
        · exact .inr (List.mem_cons_of_mem _ h)
      · rcases List.mem_cons.mp h with h | h
        · exact .inr (by simp [h])
        · exact (ih h).imp id (List.mem_cons_of_mem _)

/-- Every write keeps the canonical form. -/
theorem store_wf {m : Memory} (i : Nat) (b : Byte) (h : Memory.Wf m) : Memory.Wf (Memory.store m i b) := by
  induction m with
  | nil => simp [Memory.Wf, Memory.store]
  | cons d m ih =>
    obtain ⟨a, v⟩ := d
    obtain ⟨h1, h2⟩ := List.pairwise_cons.mp h
    unfold Memory.store
    split
    · rename_i hlt
      refine List.pairwise_cons.mpr ⟨fun c hc => ?_, h⟩
      rcases List.mem_cons.mp hc with rfl | hc
      · exact hlt
      · exact hlt.trans (h1 c hc)
    · split
      · rename_i _ e
        subst e
        exact List.pairwise_cons.mpr ⟨h1, h2⟩
      · refine List.pairwise_cons.mpr ⟨fun c hc => ?_, ih h2⟩
        rcases mem_store hc with rfl | hc
        · change a < i
          omega
        · exact h1 c hc

/-- Every write inside the range keeps the array inside its range. -/
theorem store_below {m : Memory} {n i : Nat} (b : Byte) (hi : i < n) (h : Memory.Below n m) :
    Memory.Below n (Memory.store m i b) := by
  intro c hc
  rcases mem_store hc with rfl | hc
  · exact hi
  · exact h c hc

@[simp] theorem byteAt_store_self (sp : Space) (m : Memory) (i : Nat) (b : Byte) :
    Memory.byteAt sp (Memory.store m i b) i = b := by
  simp [Memory.byteAt, look_store_self]

theorem byteAt_store_of_ne (sp : Space) (m : Memory) {i j : Nat} (b : Byte) (h : j ≠ i) :
    Memory.byteAt sp (Memory.store m i b) j = Memory.byteAt sp m j := by
  simp [Memory.byteAt, look_store_of_ne m b h]

/-- Two memories in canonical form that list the same bytes are the same data. -/
theorem eq_of_look_eq {m m' : Memory} (h : Memory.Wf m) (h' : Memory.Wf m')
    (e : ∀ i, Memory.look m i = Memory.look m' i) : m = m' := by
  have none_below : ∀ (l : Memory) (a : Nat), (∀ c ∈ l, a < c.1) → Memory.look l a = none := by
    intro l a
    induction l with
    | nil => simp [Memory.look]
    | cons c l ih =>
      obtain ⟨x, v⟩ := c
      intro hl
      have h1 : a < x := hl (x, v) (by simp)
      simp only [Memory.look, show ¬x = a by omega, if_false]
      exact ih fun c hc => hl c (List.mem_cons_of_mem _ hc)
  induction m generalizing m' with
  | nil =>
    cases m' with
    | nil => rfl
    | cons c m' =>
      obtain ⟨a, v⟩ := c
      simpa [Memory.look] using e a
  | cons c m ih =>
    obtain ⟨a, v⟩ := c
    obtain ⟨h1, h2⟩ := List.pairwise_cons.mp h
    cases m' with
    | nil => simpa [Memory.look] using e a
    | cons d m' =>
      obtain ⟨a', v'⟩ := d
      obtain ⟨h1', h2'⟩ := List.pairwise_cons.mp h'
      have haa : a = a' := by
        rcases Nat.lt_trichotomy a a' with hlt | heq | hlt
        · have hn := none_below ((a', v') :: m') a (by
            intro c hc
            rcases List.mem_cons.mp hc with rfl | hc
            · exact hlt
            · exact hlt.trans (h1' c hc))
          rw [← e a] at hn
          simp [Memory.look] at hn
        · exact heq
        · have hn := none_below ((a, v) :: m) a' (by
            intro c hc
            rcases List.mem_cons.mp hc with rfl | hc
            · exact hlt
            · exact hlt.trans (h1 c hc))
          rw [e a'] at hn
          simp [Memory.look] at hn
      subst haa
      have hvv : v = v' := by simpa [Memory.look] using e a
      subst hvv
      congr 1
      refine ih h2 h2' fun i => ?_
      by_cases hi : a = i
      · subst hi
        rw [none_below m a (fun c hc => h1 c hc), none_below m' a (fun c hc => h1' c hc)]
      · simpa [Memory.look, hi] using e i

end Sys2Proof.Machine
end

