-- ==== Sys2Proof/Laws/State.lean ====
section
/-! SUPPORT. One lemma for each field under each named update of State, so that no proof unfolds an update; and how
`ring` reads through them. -/

namespace Sys2Proof.Machine

/-! ### `setRing` -/

@[simp] theorem setRing_cfg (s : State) (q : RingId) (r : RingBuf) : (s.setRing q r).cfg = s.cfg := rfl
@[simp] theorem setRing_idle (s : State) (q : RingId) (r : RingBuf) : (s.setRing q r).idle = s.idle := rfl
@[simp] theorem setRing_txie (s : State) (q : RingId) (r : RingBuf) : (s.setRing q r).txie = s.txie := rfl
@[simp] theorem setRing_txd (s : State) (q : RingId) (r : RingBuf) : (s.setRing q r).txd = s.txd := rfl
@[simp] theorem setRing_txf (s : State) (q : RingId) (r : RingBuf) : (s.setRing q r).txf = s.txf := rfl
@[simp] theorem setRing_rxd (s : State) (q : RingId) (r : RingBuf) : (s.setRing q r).rxd = s.rxd := rfl
@[simp] theorem setRing_rxc (s : State) (q : RingId) (r : RingBuf) : (s.setRing q r).rxc = s.rxc := rfl
@[simp] theorem setRing_im (s : State) (q : RingId) (r : RingBuf) : (s.setRing q r).im = s.im := rfl
@[simp] theorem setRing_fgPhase (s : State) (q : RingId) (r : RingBuf) : (s.setRing q r).fgPhase = s.fgPhase := rfl
@[simp] theorem setRing_fcBuf (s : State) (q : RingId) (r : RingBuf) : (s.setRing q r).fcBuf = s.fcBuf := rfl
@[simp] theorem setRing_fcIdx (s : State) (q : RingId) (r : RingBuf) : (s.setRing q r).fcIdx = s.fcIdx := rfl
@[simp] theorem setRing_fcEsc (s : State) (q : RingId) (r : RingBuf) : (s.setRing q r).fcEsc = s.fcEsc := rfl
@[simp] theorem setRing_ckAcc (s : State) (q : RingId) (r : RingBuf) : (s.setRing q r).ckAcc = s.ckAcc := rfl
@[simp] theorem setRing_wireOut (s : State) (q : RingId) (r : RingBuf) : (s.setRing q r).wireOut = s.wireOut := rfl
@[simp] theorem setRing_wireIn (s : State) (q : RingId) (r : RingBuf) : (s.setRing q r).wireIn = s.wireIn := rfl
@[simp] theorem setRing_cmds (s : State) (q : RingId) (r : RingBuf) : (s.setRing q r).cmds = s.cmds := rfl
@[simp] theorem setRing_resp (s : State) (q : RingId) (r : RingBuf) : (s.setRing q r).resp = s.resp := rfl
@[simp] theorem setRing_schedule (s : State) (q : RingId) (r : RingBuf) : (s.setRing q r).schedule = s.schedule := rfl
@[simp] theorem setRing_draws (s : State) (q : RingId) (r : RingBuf) : (s.setRing q r).draws = s.draws := rfl

/-! ### `respond` -/

@[simp] theorem respond_cfg (ok : Bool) (d : Half) (s : State) : (respond ok d s).cfg = s.cfg := rfl
@[simp] theorem respond_out (ok : Bool) (d : Half) (s : State) : (respond ok d s).out = s.out := rfl
@[simp] theorem respond_inp (ok : Bool) (d : Half) (s : State) : (respond ok d s).inp = s.inp := rfl
@[simp] theorem respond_aux (ok : Bool) (d : Half) (s : State) : (respond ok d s).aux = s.aux := rfl
@[simp] theorem respond_idle (ok : Bool) (d : Half) (s : State) : (respond ok d s).idle = s.idle := rfl
@[simp] theorem respond_txie (ok : Bool) (d : Half) (s : State) : (respond ok d s).txie = s.txie := rfl
@[simp] theorem respond_txd (ok : Bool) (d : Half) (s : State) : (respond ok d s).txd = s.txd := rfl
@[simp] theorem respond_txf (ok : Bool) (d : Half) (s : State) : (respond ok d s).txf = s.txf := rfl
@[simp] theorem respond_rxd (ok : Bool) (d : Half) (s : State) : (respond ok d s).rxd = s.rxd := rfl
@[simp] theorem respond_rxc (ok : Bool) (d : Half) (s : State) : (respond ok d s).rxc = s.rxc := rfl
@[simp] theorem respond_im (ok : Bool) (d : Half) (s : State) : (respond ok d s).im = s.im := rfl
@[simp] theorem respond_fgPhase (ok : Bool) (d : Half) (s : State) : (respond ok d s).fgPhase = s.fgPhase := rfl
@[simp] theorem respond_fcBuf (ok : Bool) (d : Half) (s : State) : (respond ok d s).fcBuf = s.fcBuf := rfl
@[simp] theorem respond_fcIdx (ok : Bool) (d : Half) (s : State) : (respond ok d s).fcIdx = s.fcIdx := rfl
@[simp] theorem respond_fcEsc (ok : Bool) (d : Half) (s : State) : (respond ok d s).fcEsc = s.fcEsc := rfl
@[simp] theorem respond_ckAcc (ok : Bool) (d : Half) (s : State) : (respond ok d s).ckAcc = s.ckAcc := rfl
@[simp] theorem respond_wireOut (ok : Bool) (d : Half) (s : State) : (respond ok d s).wireOut = s.wireOut := rfl
@[simp] theorem respond_wireIn (ok : Bool) (d : Half) (s : State) : (respond ok d s).wireIn = s.wireIn := rfl
@[simp] theorem respond_cmds (ok : Bool) (d : Half) (s : State) : (respond ok d s).cmds = s.cmds := rfl
@[simp] theorem respond_resp (ok : Bool) (d : Half) (s : State) : (respond ok d s).resp = some (respWord ok d) := rfl
@[simp] theorem respond_schedule (ok : Bool) (d : Half) (s : State) : (respond ok d s).schedule = s.schedule := rfl
@[simp] theorem respond_draws (ok : Bool) (d : Half) (s : State) : (respond ok d s).draws = s.draws := rfl

/-! ### `respondFree` -/

@[simp] theorem respondFree_cfg (ok : Bool) (s : State) : (respondFree ok s).cfg = s.cfg := rfl
@[simp] theorem respondFree_out (ok : Bool) (s : State) : (respondFree ok s).out = s.out := rfl
@[simp] theorem respondFree_inp (ok : Bool) (s : State) : (respondFree ok s).inp = s.inp := rfl
@[simp] theorem respondFree_aux (ok : Bool) (s : State) : (respondFree ok s).aux = s.aux := rfl
@[simp] theorem respondFree_idle (ok : Bool) (s : State) : (respondFree ok s).idle = s.idle := rfl
@[simp] theorem respondFree_txie (ok : Bool) (s : State) : (respondFree ok s).txie = s.txie := rfl
@[simp] theorem respondFree_txd (ok : Bool) (s : State) : (respondFree ok s).txd = s.txd := rfl
@[simp] theorem respondFree_txf (ok : Bool) (s : State) : (respondFree ok s).txf = s.txf := rfl
@[simp] theorem respondFree_rxd (ok : Bool) (s : State) : (respondFree ok s).rxd = s.rxd := rfl
@[simp] theorem respondFree_rxc (ok : Bool) (s : State) : (respondFree ok s).rxc = s.rxc := rfl
@[simp] theorem respondFree_im (ok : Bool) (s : State) : (respondFree ok s).im = s.im := rfl
@[simp] theorem respondFree_fgPhase (ok : Bool) (s : State) : (respondFree ok s).fgPhase = s.fgPhase := rfl
@[simp] theorem respondFree_fcBuf (ok : Bool) (s : State) : (respondFree ok s).fcBuf = s.fcBuf := rfl
@[simp] theorem respondFree_fcIdx (ok : Bool) (s : State) : (respondFree ok s).fcIdx = s.fcIdx := rfl
@[simp] theorem respondFree_fcEsc (ok : Bool) (s : State) : (respondFree ok s).fcEsc = s.fcEsc := rfl
@[simp] theorem respondFree_ckAcc (ok : Bool) (s : State) : (respondFree ok s).ckAcc = s.ckAcc := rfl
@[simp] theorem respondFree_wireOut (ok : Bool) (s : State) : (respondFree ok s).wireOut = s.wireOut := rfl
@[simp] theorem respondFree_wireIn (ok : Bool) (s : State) : (respondFree ok s).wireIn = s.wireIn := rfl
@[simp] theorem respondFree_cmds (ok : Bool) (s : State) : (respondFree ok s).cmds = s.cmds := rfl
@[simp] theorem respondFree_resp (ok : Bool) (s : State) : (respondFree ok s).resp = some (respWord ok (Config.freeData s.draws)) := rfl
@[simp] theorem respondFree_schedule (ok : Bool) (s : State) : (respondFree ok s).schedule = s.schedule := rfl
@[simp] theorem respondFree_draws (ok : Bool) (s : State) : (respondFree ok s).draws = s.draws + 1 := rfl

/-! ### `endOp` -/

@[simp] theorem endOp_cfg (s : State) : (endOp s).cfg = s.cfg := rfl
@[simp] theorem endOp_out (s : State) : (endOp s).out = s.out := rfl
@[simp] theorem endOp_inp (s : State) : (endOp s).inp = s.inp := rfl
@[simp] theorem endOp_aux (s : State) : (endOp s).aux = s.aux := rfl
@[simp] theorem endOp_idle (s : State) : (endOp s).idle = s.idle := rfl
@[simp] theorem endOp_txie (s : State) : (endOp s).txie = s.txie := rfl
@[simp] theorem endOp_txd (s : State) : (endOp s).txd = s.txd := rfl
@[simp] theorem endOp_txf (s : State) : (endOp s).txf = s.txf := rfl
@[simp] theorem endOp_rxd (s : State) : (endOp s).rxd = s.rxd := rfl
@[simp] theorem endOp_rxc (s : State) : (endOp s).rxc = s.rxc := rfl
@[simp] theorem endOp_im (s : State) : (endOp s).im = s.im := rfl
@[simp] theorem endOp_fgPhase (s : State) : (endOp s).fgPhase = .idle := rfl
@[simp] theorem endOp_fcBuf (s : State) : (endOp s).fcBuf = s.fcBuf := rfl
@[simp] theorem endOp_fcIdx (s : State) : (endOp s).fcIdx = s.fcIdx := rfl
@[simp] theorem endOp_fcEsc (s : State) : (endOp s).fcEsc = s.fcEsc := rfl
@[simp] theorem endOp_ckAcc (s : State) : (endOp s).ckAcc = s.ckAcc := rfl
@[simp] theorem endOp_wireOut (s : State) : (endOp s).wireOut = s.wireOut := rfl
@[simp] theorem endOp_wireIn (s : State) : (endOp s).wireIn = s.wireIn := rfl
@[simp] theorem endOp_cmds (s : State) : (endOp s).cmds = s.cmds := rfl
@[simp] theorem endOp_resp (s : State) : (endOp s).resp = s.resp := rfl
@[simp] theorem endOp_schedule (s : State) : (endOp s).schedule = s.schedule := rfl
@[simp] theorem endOp_draws (s : State) : (endOp s).draws = s.draws := rfl

/-! ### `loadTxd` -/

@[simp] theorem loadTxd_cfg (v : Byte) (s : State) : (loadTxd v s).cfg = s.cfg := rfl
@[simp] theorem loadTxd_out (v : Byte) (s : State) : (loadTxd v s).out = s.out := rfl
@[simp] theorem loadTxd_inp (v : Byte) (s : State) : (loadTxd v s).inp = s.inp := rfl
@[simp] theorem loadTxd_aux (v : Byte) (s : State) : (loadTxd v s).aux = s.aux := rfl
@[simp] theorem loadTxd_idle (v : Byte) (s : State) : (loadTxd v s).idle = s.idle := rfl
@[simp] theorem loadTxd_txie (v : Byte) (s : State) : (loadTxd v s).txie = s.txie := rfl
@[simp] theorem loadTxd_txd (v : Byte) (s : State) : (loadTxd v s).txd = v := rfl
@[simp] theorem loadTxd_txf (v : Byte) (s : State) : (loadTxd v s).txf = true := rfl
@[simp] theorem loadTxd_rxd (v : Byte) (s : State) : (loadTxd v s).rxd = s.rxd := rfl
@[simp] theorem loadTxd_rxc (v : Byte) (s : State) : (loadTxd v s).rxc = s.rxc := rfl
@[simp] theorem loadTxd_im (v : Byte) (s : State) : (loadTxd v s).im = s.im := rfl
@[simp] theorem loadTxd_fgPhase (v : Byte) (s : State) : (loadTxd v s).fgPhase = s.fgPhase := rfl
@[simp] theorem loadTxd_fcBuf (v : Byte) (s : State) : (loadTxd v s).fcBuf = s.fcBuf := rfl
@[simp] theorem loadTxd_fcIdx (v : Byte) (s : State) : (loadTxd v s).fcIdx = s.fcIdx := rfl
@[simp] theorem loadTxd_fcEsc (v : Byte) (s : State) : (loadTxd v s).fcEsc = s.fcEsc := rfl
@[simp] theorem loadTxd_ckAcc (v : Byte) (s : State) : (loadTxd v s).ckAcc = s.ckAcc := rfl
@[simp] theorem loadTxd_wireOut (v : Byte) (s : State) : (loadTxd v s).wireOut = s.wireOut := rfl
@[simp] theorem loadTxd_wireIn (v : Byte) (s : State) : (loadTxd v s).wireIn = s.wireIn := rfl
@[simp] theorem loadTxd_cmds (v : Byte) (s : State) : (loadTxd v s).cmds = s.cmds := rfl
@[simp] theorem loadTxd_resp (v : Byte) (s : State) : (loadTxd v s).resp = s.resp := rfl
@[simp] theorem loadTxd_schedule (v : Byte) (s : State) : (loadTxd v s).schedule = s.schedule := rfl
@[simp] theorem loadTxd_draws (v : Byte) (s : State) : (loadTxd v s).draws = s.draws := rfl

/-! ### `ring` -/

@[simp] theorem ring_out (s : State) : s.ring .out = s.out := rfl
@[simp] theorem ring_inp (s : State) : s.ring .inp = s.inp := rfl
@[simp] theorem ring_aux (s : State) : s.ring .aux = s.aux := rfl
@[simp] theorem setRing_out_out (s : State) (r : RingBuf) : (s.setRing .out r).out = r := rfl
@[simp] theorem setRing_out_inp (s : State) (r : RingBuf) : (s.setRing .out r).inp = s.inp := rfl
@[simp] theorem setRing_out_aux (s : State) (r : RingBuf) : (s.setRing .out r).aux = s.aux := rfl
@[simp] theorem setRing_inp_out (s : State) (r : RingBuf) : (s.setRing .inp r).out = s.out := rfl
@[simp] theorem setRing_inp_inp (s : State) (r : RingBuf) : (s.setRing .inp r).inp = r := rfl
@[simp] theorem setRing_inp_aux (s : State) (r : RingBuf) : (s.setRing .inp r).aux = s.aux := rfl
@[simp] theorem setRing_aux_out (s : State) (r : RingBuf) : (s.setRing .aux r).out = s.out := rfl
@[simp] theorem setRing_aux_inp (s : State) (r : RingBuf) : (s.setRing .aux r).inp = s.inp := rfl
@[simp] theorem setRing_aux_aux (s : State) (r : RingBuf) : (s.setRing .aux r).aux = r := rfl

@[simp] theorem cap_out (s : State) : s.cap .out = s.cfg.nOut := rfl
@[simp] theorem cap_inp (s : State) : s.cap .inp = s.cfg.nIn := rfl
@[simp] theorem cap_aux (s : State) : s.cap .aux = s.cfg.nAux := rfl

@[simp] theorem cap_setRing (s : State) (q p : RingId) (r : RingBuf) : (s.setRing q r).cap p = s.cap p := rfl
@[simp] theorem cap_respond (ok : Bool) (d : Half) (s : State) (p : RingId) : (respond ok d s).cap p = s.cap p := rfl
@[simp] theorem cap_respondFree (ok : Bool) (s : State) (p : RingId) : (respondFree ok s).cap p = s.cap p := rfl
@[simp] theorem cap_endOp (s : State) (p : RingId) : (endOp s).cap p = s.cap p := rfl

@[simp] theorem ring_setRing_self (s : State) (q : RingId) (r : RingBuf) : (s.setRing q r).ring q = r := by
  cases q <;> rfl

theorem ring_setRing_of_ne (s : State) {p q : RingId} (r : RingBuf) (h : p ≠ q) : (s.setRing q r).ring p = s.ring p := by
  cases p <;> cases q <;> first | rfl | exact absurd rfl h

@[simp] theorem setRing_ring (s : State) (q : RingId) : s.setRing q (s.ring q) = s := by
  cases q <;> rfl

@[simp] theorem setRing_setRing (s : State) (q : RingId) (r r' : RingBuf) :
    (s.setRing q r).setRing q r' = s.setRing q r' := by
  cases q <;> rfl

@[simp] theorem ring_respond (ok : Bool) (d : Half) (s : State) (p : RingId) : (respond ok d s).ring p = s.ring p := by
  cases p <;> rfl

@[simp] theorem ring_respondFree (ok : Bool) (s : State) (p : RingId) : (respondFree ok s).ring p = s.ring p := by
  cases p <;> rfl

@[simp] theorem ring_endOp (s : State) (p : RingId) : (endOp s).ring p = s.ring p := by
  cases p <;> rfl

@[simp] theorem ring_loadTxd (v : Byte) (s : State) (p : RingId) : (loadTxd v s).ring p = s.ring p := by
  cases p <;> rfl

@[simp] theorem ring_schedule (s : State) (ms : List Move) (p : RingId) :
    ({ s with schedule := ms } : State).ring p = s.ring p := by
  cases p <;> rfl

@[simp] theorem ring_schedule_draws (s : State) (ms : List Move) (d : Nat) (p : RingId) :
    ({ s with schedule := ms, draws := d } : State).ring p = s.ring p := by
  cases p <;> rfl

@[simp] theorem cap_schedule (s : State) (ms : List Move) (p : RingId) :
    ({ s with schedule := ms } : State).cap p = s.cap p := rfl

@[simp] theorem cap_schedule_draws (s : State) (ms : List Move) (d : Nat) (p : RingId) :
    ({ s with schedule := ms, draws := d } : State).cap p = s.cap p := rfl

end Sys2Proof.Machine
end

