-- ==== Sys2Proof/Laws/Queue.lean ====
section
/-! SUPPORT. What the ring-buffer contracts do, one lemma for each case of each contract, and that each keeps the
invariants of a buffer. Callers cite these and do not unfold the contracts. -/

namespace Sys2Proof.Machine

/-! ### Index arithmetic -/

theorem incN_toNat {n : Nat} (i : Byte) (h0 : 1 ≤ n) (h1 : n ≤ 255) : (incN n i).toNat = (i.toNat + 1) % n := by
  have := Nat.mod_lt (i.toNat + 1) (show n > 0 by omega)
  simp only [incN, BitVec.toNat_ofNat]
  omega

theorem incN_toNat_ite {n : Nat} {i : Byte} (h1 : n ≤ 255) (hi : i.toNat < n) :
    (incN n i).toNat = if i.toNat + 1 = n then 0 else i.toNat + 1 := by
  rw [incN_toNat i (by omega) h1]
  split
  · rename_i h
    rw [h, Nat.mod_self]
  · exact Nat.mod_eq_of_lt (by omega)

theorem diffN_eq_ite {n : Nat} {a b : Byte} (ha : a.toNat < n) (hb : b.toNat < n) :
    diffN n a b = if b.toNat ≤ a.toNat then a.toNat - b.toNat else a.toNat + n - b.toNat := by
  unfold diffN
  split
  · rw [Int.emod_eq_of_lt (by omega) (by omega)]
    omega
  · have e : ((a.toNat : Int) - b.toNat) % n = ((a.toNat : Int) - b.toNat + n) % n := by simp
    rw [e, Int.emod_eq_of_lt (by omega) (by omega)]
    omega

/-- The difference as the spec writes it. -/
theorem diffN_eq_emod {n : Nat} (a b : Byte) (h : 1 ≤ n) :
    (diffN n a b : Int) = ((a.toNat : Int) - (b.toNat : Int)) % (n : Int) :=
  Int.toNat_of_nonneg (Int.emod_nonneg _ (by omega))

theorem committed_eq {n : Nat} {q : RingBuf} (h : q.InRange n) :
    q.committed n = if q.write.toNat = q.read.toNat then (if q.full then n else 0)
      else if q.read.toNat ≤ q.write.toNat then q.write.toNat - q.read.toNat
      else q.write.toNat + n - q.read.toNat := by
  rw [RingBuf.committed, diffN_eq_ite h.2.1 h.1]
  simp only [BitVec.toNat_inj]

theorem staged_eq {n : Nat} {q : RingBuf} (h : q.InRange n) :
    q.staged n = if q.tentative.toNat = q.write.toNat then 0
      else if q.write.toNat ≤ q.tentative.toNat then q.tentative.toNat - q.write.toNat
      else q.tentative.toNat + n - q.write.toNat := by
  rw [RingBuf.staged, diffN_eq_ite h.2.2 h.2.1]
  simp only [BitVec.toNat_inj]

theorem ringBuf_isEmpty_iff (q : RingBuf) : q.isEmpty = true ↔ q.Empty := by
  simp [RingBuf.isEmpty, RingBuf.Empty]

theorem ringBuf_isEmpty_eq_false_iff (q : RingBuf) : q.isEmpty = false ↔ ¬q.Empty := by
  rw [← ringBuf_isEmpty_iff]; simp

/-! ### The contracts, case by case -/

theorem writeTentative_full {sp : Space} {n : Nat} {q : RingBuf} (b : Byte) (h : q.full = true) :
    q.writeTentative sp n b = .ok (false, q) := by
  simp [RingBuf.writeTentative, h]

/-- The buffer after a byte has been staged. -/
theorem writeTentative_room {sp : Space} {n : Nat} {q : RingBuf} (b : Byte) (h : q.full = false)
    (ht : q.tentative.toNat < n) :
    q.writeTentative sp n b = .ok (true, { q with
      buf := Memory.store q.buf q.tentative.toNat b
      tentative := incN n q.tentative
      full := incN n q.tentative == q.read }) := by
  simp [RingBuf.writeTentative, stageStore, memWrite, RingBuf.fullAfterStage, h, ht]

theorem pop_empty {sp : Space} {n : Nat} {q : RingBuf} (h : q.Empty) : q.pop sp n = .ok (none, q) := by
  simp [RingBuf.pop, (ringBuf_isEmpty_iff q).mpr h]

theorem pop_byte {sp : Space} {n : Nat} {q : RingBuf} (h : ¬q.Empty) (hr : q.read.toNat < n) :
    q.pop sp n = .ok (some (Memory.byteAt sp q.buf q.read.toNat), { q with read := incN n q.read, full := false }) := by
  simp [RingBuf.pop, (ringBuf_isEmpty_eq_false_iff q).mpr h, consumeLoad, memRead, hr]

theorem peek_empty {sp : Space} {n : Nat} {q : RingBuf} (h : q.Empty) : q.peek sp n = .ok none := by
  simp [RingBuf.peek, (ringBuf_isEmpty_iff q).mpr h]

theorem peek_byte {sp : Space} {n : Nat} {q : RingBuf} (h : ¬q.Empty) (hr : q.read.toNat < n) :
    q.peek sp n = .ok (some (Memory.byteAt sp q.buf q.read.toNat)) := by
  simp [RingBuf.peek, (ringBuf_isEmpty_eq_false_iff q).mpr h, memRead, hr]

/-- Whatever a tentative write answers, it leaves `read` and `write`. -/
theorem writeTentative_frame {sp : Space} {n : Nat} {q r : RingBuf} {b : Byte} {ok : Bool}
    (h : q.writeTentative sp n b = .ok (ok, r)) :
    r.read = q.read ∧ r.write = q.write ∧ (ok = false → r = q) := by
  unfold RingBuf.writeTentative at h
  split at h
  · simp only [Except.ok.injEq, Prod.mk.injEq] at h
    obtain ⟨_, rfl⟩ := h
    exact ⟨rfl, rfl, fun _ => rfl⟩
  · split at h
    · simp only [Except.ok.injEq, Prod.mk.injEq] at h
      obtain ⟨rfl, rfl⟩ := h
      exact ⟨rfl, rfl, fun e => by simp at e⟩
    · simp at h

/-- Whatever a read answers, it leaves `write`, `tentative` and the array. -/
theorem pop_frame {sp : Space} {n : Nat} {q r : RingBuf} {v : Option Byte} (h : q.pop sp n = .ok (v, r)) :
    r.write = q.write ∧ r.tentative = q.tentative ∧ r.buf = q.buf ∧ (v = none ↔ q.Empty) := by
  unfold RingBuf.pop at h
  split at h
  · rename_i he
    simp only [Except.ok.injEq, Prod.mk.injEq] at h
    obtain ⟨rfl, rfl⟩ := h
    exact ⟨rfl, rfl, rfl, iff_of_true rfl ((ringBuf_isEmpty_iff q).mp he)⟩
  · rename_i he
    split at h
    · simp only [Except.ok.injEq, Prod.mk.injEq] at h
      obtain ⟨rfl, rfl⟩ := h
      refine ⟨rfl, rfl, rfl, ?_⟩
      rw [← ringBuf_isEmpty_iff]
      simp [he]
    · simp at h

/-! ### The invariants of a buffer -/

/-- Where the three indices lie: a full buffer has `tentative` back at `read`; otherwise, walking forward from `read`,
one meets `write` no later than `tentative` (10_state R23 (d), (e)). -/
abbrev RingBuf.Ordered (q : RingBuf) : Prop :=
  (q.full = true ∧ q.tentative.toNat = q.read.toNat)
    ∨ (q.full = false ∧ ((q.read.toNat ≤ q.write.toNat ∧ q.write.toNat ≤ q.tentative.toNat)
      ∨ (q.read.toNat ≤ q.write.toNat ∧ q.tentative.toNat < q.read.toNat)
      ∨ (q.write.toNat ≤ q.tentative.toNat ∧ q.tentative.toNat < q.read.toNat)))

/-- The counts of 10_state R23 (b), (c), (e) say no more and no less than the order of the indices. -/
theorem counts_iff_ordered {n : Nat} {q : RingBuf} (h : q.InRange n) :
    (q.committed n + q.staged n ≤ n ∧ (q.full = true ↔ q.committed n + q.staged n = n)
      ∧ (q.full = true → q.tentative = q.read)) ↔ q.Ordered := by
  rw [committed_eq h, staged_eq h, RingBuf.Ordered, ← BitVec.toNat_inj]
  obtain ⟨h1, h2, h3⟩ := h
  generalize q.read.toNat = r at *
  generalize q.write.toNat = w at *
  generalize q.tentative.toNat = t at *
  cases q.full
  · simp only [Bool.false_eq_true, if_false, false_iff, false_and, false_or, true_and, false_implies, and_true]
    split_ifs <;> omega
  · simp only [if_true, true_iff, true_and, true_implies, Bool.true_eq_false, false_and, or_false]
    split_ifs <;> omega

theorem inv_iff {n : Nat} {q : RingBuf} :
    q.Inv n ↔ q.InRange n ∧ q.Ordered ∧ Memory.Wf q.buf ∧ Memory.Below n q.buf := by
  constructor
  · rintro ⟨hr, h1, h2, h3, h4⟩
    exact ⟨hr, (counts_iff_ordered hr).mp ⟨h1, h2, h3⟩, h4⟩
  · rintro ⟨hr, ho, h4⟩
    obtain ⟨h1, h2, h3⟩ := (counts_iff_ordered hr).mpr ho
    exact ⟨hr, h1, h2, h3, h4⟩

theorem inv_reset {n : Nat} (h : 1 ≤ n) : RingBuf.reset.Inv n := by
  refine inv_iff.mpr ⟨⟨h, h, h⟩, .inr ⟨rfl, .inl ⟨le_rfl, le_rfl⟩⟩, ?_, ?_⟩ <;> simp [RingBuf.reset]

theorem writeTentative_keeps_inv {sp : Space} {n : Nat} {q r : RingBuf} {b : Byte} {ok : Bool} (hn : n ≤ 255)
    (hq : q.Inv n) (h : q.writeTentative sp n b = .ok (ok, r)) : r.Inv n := by
  by_cases hf : q.full = true
  · rw [writeTentative_full b hf] at h
    simp only [Except.ok.injEq, Prod.mk.injEq] at h
    obtain ⟨_, rfl⟩ := h
    exact hq
  · rw [Bool.not_eq_true] at hf
    obtain ⟨⟨h1, h2, h3⟩, ho, hwf, hbe⟩ := inv_iff.mp hq
    rw [writeTentative_room b hf h3] at h
    simp only [Except.ok.injEq, Prod.mk.injEq] at h
    obtain ⟨-, rfl⟩ := h
    have hi := incN_toNat_ite hn h3
    have hb : (incN n q.tentative == q.read) = decide ((incN n q.tentative).toNat = q.read.toNat) := by
      rw [Bool.eq_iff_iff]; simp [BitVec.toNat_inj]
    refine inv_iff.mpr ⟨⟨h1, h2, ?_⟩, ?_, store_wf _ _ hwf, store_below _ h3 hbe⟩
    · change (incN n q.tentative).toNat < n
      rw [hi]; split <;> omega
    · simp only [RingBuf.Ordered, hf, Bool.false_eq_true, false_and, false_or, true_and] at ho
      simp only [RingBuf.Ordered, hb, hi, decide_eq_true_eq, decide_eq_false_iff_not]
      split_ifs <;> omega

theorem commit_keeps_inv {n : Nat} {q : RingBuf} (hq : q.Inv n) : q.commit.Inv n := by
  obtain ⟨⟨h1, h2, h3⟩, ho, hwf, hbe⟩ := inv_iff.mp hq
  refine inv_iff.mpr ⟨⟨h1, h3, h3⟩, ?_, hwf, hbe⟩
  simp only [RingBuf.Ordered, RingBuf.commit] at ho ⊢
  rcases ho with h | ⟨h, h'⟩
  · exact .inl h
  · exact .inr ⟨h, by omega⟩

theorem abort_keeps_inv {n : Nat} {q : RingBuf} (hq : q.Inv n) : q.abort.Inv n := by
  unfold RingBuf.abort
  split
  · exact hq
  · obtain ⟨⟨h1, h2, h3⟩, ho, hwf, hbe⟩ := inv_iff.mp hq
    refine inv_iff.mpr ⟨⟨h1, h2, h2⟩, .inr ⟨rfl, ?_⟩, hwf, hbe⟩
    simp only [RingBuf.Ordered] at ho
    dsimp only
    omega

/-- The buffer after a read. -/
theorem popped_inv {n : Nat} {q : RingBuf} (hn : n ≤ 255) (hq : q.Inv n) (he : ¬q.Empty) :
    RingBuf.Inv n { q with read := incN n q.read, full := false } := by
  obtain ⟨⟨h1, h2, h3⟩, ho, hwf, hbe⟩ := inv_iff.mp hq
  have hi := incN_toNat_ite hn h1
  have he' : ¬(q.read.toNat = q.write.toNat ∧ q.full = false) := by rwa [BitVec.toNat_inj]
  refine inv_iff.mpr ⟨⟨?_, h2, h3⟩, .inr ⟨rfl, ?_⟩, hwf, hbe⟩
  · change (incN n q.read).toNat < n
    rw [hi]; split <;> omega
  · simp only [RingBuf.Ordered] at ho
    simp only [hi]
    cases hf : q.full <;> simp only [hf, and_true, and_false, Bool.false_eq_true, Bool.true_eq_false, false_and,
      false_or, or_false, true_and, not_false_eq_true] at ho he' <;> split_ifs <;> omega

/-- A byte taken: one committed byte fewer, the staged ones as before. -/
theorem pop_counts {n : Nat} {q : RingBuf} (hn : n ≤ 255) (hq : q.Inv n) (he : ¬q.Empty) :
    RingBuf.committed n { q with read := incN n q.read, full := false } + 1 = q.committed n
      ∧ RingBuf.staged n { q with read := incN n q.read, full := false } = q.staged n := by
  refine ⟨?_, rfl⟩
  have hi := incN_toNat_ite hn hq.1.1
  rw [committed_eq hq.1, committed_eq (popped_inv hn hq he).1]
  obtain ⟨⟨h1, h2, h3⟩, ho, -, -⟩ := inv_iff.mp hq
  have he' : ¬(q.read.toNat = q.write.toNat ∧ q.full = false) := by rwa [BitVec.toNat_inj]
  simp only [RingBuf.Ordered] at ho
  simp only [hi]
  cases hf : q.full <;> simp only [hf, and_true, and_false, Bool.false_eq_true, Bool.true_eq_false, false_and,
      false_or, or_false, true_and, not_false_eq_true, if_false, if_true] at ho he' ⊢ <;> split_ifs <;> omega

theorem pop_keeps_inv {sp : Space} {n : Nat} {q r : RingBuf} {v : Option Byte} (hn : n ≤ 255) (hq : q.Inv n)
    (h : q.pop sp n = .ok (v, r)) : r.Inv n := by
  by_cases he : q.Empty
  · rw [pop_empty he] at h
    simp only [Except.ok.injEq, Prod.mk.injEq] at h
    obtain ⟨_, rfl⟩ := h
    exact hq
  · rw [pop_byte he hq.1.1] at h
    simp only [Except.ok.injEq, Prod.mk.injEq] at h
    obtain ⟨-, rfl⟩ := h
    exact popped_inv hn hq he

/-! ### The unread bytes -/

/-- Where the next staged byte goes: past all the unread ones. -/
theorem tentative_eq_mod {n : Nat} {q : RingBuf} (hq : q.Inv n) :
    q.tentative.toNat = (q.read.toNat + (q.committed n + q.staged n)) % n := by
  obtain ⟨hr, ho, -, -⟩ := inv_iff.mp hq
  rw [committed_eq hr, staged_eq hr]
  obtain ⟨h1, h2, h3⟩ := hr
  have key : ∀ x, (x = q.tentative.toNat ∨ x = q.tentative.toNat + n) → q.tentative.toNat = x % n := by
    rintro x (rfl | rfl)
    · exact (Nat.mod_eq_of_lt h3).symm
    · rw [Nat.add_mod_right, Nat.mod_eq_of_lt h3]
  apply key
  simp only [RingBuf.Ordered] at ho
  cases hf : q.full <;> simp only [hf, Bool.false_eq_true, Bool.true_eq_false, false_and, true_and, false_or, or_false,
    if_true, if_false] at ho ⊢ <;> split_ifs <;> omega

/-- A byte staged: one unread byte more. -/
theorem staging_total {n : Nat} {q : RingBuf} {b : Byte} (hn : n ≤ 255) (hq : q.Inv n) (hf : q.full = false)
    {r : RingBuf} (hr : r = { q with
      buf := Memory.store q.buf q.tentative.toNat b
      tentative := incN n q.tentative
      full := incN n q.tentative == q.read }) :
    r.committed n + r.staged n = q.committed n + q.staged n + 1 := by
  have hi := incN_toNat_ite hn hq.1.2.2
  have hrange : r.InRange n :=
    (writeTentative_keeps_inv (sp := .frame) (b := b) (ok := true) hn hq
      (by rw [writeTentative_room b hf hq.1.2.2, hr])).1
  rw [committed_eq hrange, staged_eq hrange, committed_eq hq.1, staged_eq hq.1]
  obtain ⟨⟨h1, h2, h3⟩, ho, -, -⟩ := inv_iff.mp hq
  have hb : (incN n q.tentative == q.read) = decide ((incN n q.tentative).toNat = q.read.toNat) := by
    rw [Bool.eq_iff_iff]; simp [BitVec.toNat_inj]
  subst hr
  simp only [RingBuf.Ordered, hf, Bool.false_eq_true, false_and, false_or, true_and] at ho
  simp only [hb, hi, hf, decide_eq_true_eq, Bool.false_eq_true, if_false]
  split_ifs <;> omega

/-- A commit moves the staged bytes to the committed ones. -/
theorem commit_total {n : Nat} {q : RingBuf} (hq : q.Inv n) :
    q.commit.committed n = q.committed n + q.staged n ∧ q.commit.staged n = 0 := by
  refine ⟨?_, if_pos rfl⟩
  have hc : RingBuf.InRange n { q with write := q.tentative } := (commit_keeps_inv hq).1
  rw [RingBuf.commit, committed_eq hc, committed_eq hq.1, staged_eq hq.1]
  obtain ⟨⟨h1, h2, h3⟩, ho, -, -⟩ := inv_iff.mp hq
  simp only [RingBuf.Ordered] at ho
  rcases ho with ⟨hf, ho⟩ | ⟨hf, ho⟩ <;> simp only [hf, Bool.false_eq_true, if_true, if_false]
  · split_ifs <;> omega
  · split_ifs <;> omega

/-- An abort leaves the committed bytes and, unless N bytes stand in the buffer as committed ones, no staged byte. -/
theorem abort_total {n : Nat} {q : RingBuf} (hq : q.Inv n) :
    q.abort.committed n = q.committed n ∧ q.abort.staged n = 0 := by
  have hc := abort_keeps_inv hq
  unfold RingBuf.abort at hc ⊢
  split
  · rename_i h
    exact ⟨rfl, if_pos h⟩
  · rename_i h
    rw [if_neg h] at hc
    rw [← BitVec.toNat_inj] at h
    rw [committed_eq hc.1, staged_eq hc.1, committed_eq hq.1]
    obtain ⟨⟨h1, h2, h3⟩, ho, -, -⟩ := inv_iff.mp hq
    simp only [RingBuf.Ordered] at ho
    rcases ho with ⟨hf, ho⟩ | ⟨hf, ho⟩ <;> simp only [hf, Bool.false_eq_true, if_true, if_false, and_true] <;>
      (try split_ifs) <;> omega

/-- The oldest committed byte, then the others. -/
theorem contents_eq_cons {sp : Space} {n : Nat} {q : RingBuf} (hn : n ≤ 255) (hq : q.Inv n) (he : ¬q.Empty) :
    q.contents sp n = Memory.byteAt sp q.buf q.read.toNat
      :: RingBuf.contents sp n { q with read := incN n q.read, full := false } := by
  have hc := (pop_counts hn hq he).1
  have h1 := hq.1.1
  unfold RingBuf.contents
  rw [← hc, List.range_succ_eq_map, List.map_cons, List.map_map]
  congr 1
  · rw [Nat.add_zero, Nat.mod_eq_of_lt h1]
  · apply List.map_congr_left
    intro k _
    simp only [Function.comp]
    rw [incN_toNat _ (by omega) hn, Nat.mod_add_mod]
    congr 2
    omega

/-- A buffer with no byte for its consumer has no committed byte, and the other way round. -/
theorem committed_eq_zero_iff {n : Nat} {q : RingBuf} (h : q.InRange n) : q.committed n = 0 ↔ q.Empty := by
  rw [committed_eq h]
  obtain ⟨h1, h2, h3⟩ := h
  unfold RingBuf.Empty
  rw [← BitVec.toNat_inj]
  cases q.full <;> simp <;> split_ifs <;> omega

end Sys2Proof.Machine
end

