-- ==== Sys2Proof/Laws/Contracts.lean ====
section
/-! SUPPORT. Everything the shared operations, the second steps of FG's operations and the handlers can do: "if it
answers a next state, then one of these". The provers cite these and do not unfold the operations. -/

namespace Sys2Proof.Machine

/-! ### Tentative writes and reads as part of a step -/

theorem stage_cases {q : RingId} {b : Byte} {s t : State} {ok : Bool} (h : stage q b s = .ok (ok, t)) :
    ∃ r, (s.ring q).writeTentative (.ring q) (s.cap q) b = .ok (ok, r) ∧ t = s.setRing q r := by
  unfold stage at h
  split at h
  · rename_i ok' r e
    simp only [Except.ok.injEq, Prod.mk.injEq] at h
    obtain ⟨rfl, rfl⟩ := h
    exact ⟨r, e, rfl⟩
  · simp at h

theorem stage_full {q : RingId} {s : State} (b : Byte) (h : (s.ring q).full = true) :
    stage q b s = .ok (false, s) := by
  simp [stage, writeTentative_full b h]

/-- The buffer with `b` staged in it. -/
def RingBuf.staging (n : Nat) (q : RingBuf) (b : Byte) : RingBuf :=
  { q with
    buf := Memory.store q.buf q.tentative.toNat b
    tentative := incN n q.tentative
    full := incN n q.tentative == q.read }

theorem stage_room {q : RingId} {s : State} (b : Byte) (h : (s.ring q).full = false)
    (ht : (s.ring q).tentative.toNat < s.cap q) :
    stage q b s = .ok (true, s.setRing q ((s.ring q).staging (s.cap q) b)) := by
  simp [stage, writeTentative_room b h ht, RingBuf.staging]

/-- `staging` in the words of 41 R110. -/
theorem staging_stagedTo {n : Nat} {q : RingBuf} (sp : Space) (b : Byte) (h0 : 1 ≤ n) (h1 : n ≤ 255) :
    q.StagedTo sp n (q.staging n b) b := by
  refine ⟨incN_toNat _ h0 h1, byteAt_store_self .., fun j hj => byteAt_store_of_ne sp _ b hj, ?_, rfl, rfl⟩
  simp [RingBuf.staging]

theorem pop_cases {q : RingId} {s t : State} {v : Option Byte} (h : pop q s = .ok (v, t)) :
    ∃ r, (s.ring q).pop (.ring q) (s.cap q) = .ok (v, r) ∧ t = s.setRing q r := by
  unfold pop at h
  split at h
  · rename_i v' r e
    simp only [Except.ok.injEq, Prod.mk.injEq] at h
    obtain ⟨rfl, rfl⟩ := h
    exact ⟨r, e, rfl⟩
  · simp at h

theorem pop_of_empty {q : RingId} {s : State} (h : (s.ring q).Empty) : pop q s = .ok (none, s) := by
  simp [pop, pop_empty h]

/-- The buffer with its oldest byte taken. -/
def RingBuf.popping (n : Nat) (q : RingBuf) : RingBuf := { q with read := incN n q.read, full := false }

theorem pop_of_byte {q : RingId} {s : State} (h : ¬(s.ring q).Empty) (hr : (s.ring q).read.toNat < s.cap q) :
    pop q s = .ok (some (Memory.byteAt (.ring q) (s.ring q).buf (s.ring q).read.toNat),
      s.setRing q ((s.ring q).popping (s.cap q))) := by
  simp [pop, pop_byte h hr, RingBuf.popping]

/-- `popping` in the words of 41 R114. -/
theorem popping_poppedTo {n : Nat} (q : RingBuf) (h0 : 1 ≤ n) (h1 : n ≤ 255) : q.PoppedTo n (q.popping n) :=
  ⟨incN_toNat _ h0 h1, rfl⟩

/-! ### The shared operations -/

theorem stageAndRespond_next {q : RingId} {b : Byte} {s t : State} (h : stageAndRespond q b s = .next t) :
    ∃ ok r, (s.ring q).writeTentative (.ring q) (s.cap q) b = .ok (ok, r) ∧ t = respondFree ok (s.setRing q r) := by
  unfold stageAndRespond at h
  split at h
  · rename_i ok s' e
    obtain ⟨r, hr, rfl⟩ := stage_cases e
    simp only [Host.Outcome.next.injEq] at h
    exact ⟨ok, r, hr, h.symm⟩
  · simp at h

theorem popAndRespond_next {q : RingId} {s t : State} (h : popAndRespond q s = .next t) :
    ∃ v r, (s.ring q).pop (.ring q) (s.cap q) = .ok (v, r) ∧ t = respondByte v (s.setRing q r) := by
  unfold popAndRespond at h
  split at h
  · rename_i v s' e
    obtain ⟨r, hr, rfl⟩ := pop_cases e
    simp only [Host.Outcome.next.injEq] at h
    exact ⟨v, r, hr, h.symm⟩
  · simp at h

theorem readWait_next {q : RingId} {s t : State} (h : readWait q s = .next t) :
    ((s.ring q).Empty ∧ t = { s with fgPhase := .holding q })
      ∨ ∃ v r, (s.ring q).pop (.ring q) (s.cap q) = .ok (some v, r)
          ∧ t = respond true (byteData v) ((endOp s).setRing q r) := by
  unfold readWait at h
  split at h
  · rename_i he
    simp only [Host.Outcome.next.injEq] at h
    exact .inl ⟨(ringBuf_isEmpty_iff _).mp he, h.symm⟩
  · rename_i he
    obtain ⟨v, r, hr, rfl⟩ := popAndRespond_next h
    rw [ring_endOp, cap_endOp] at hr
    cases v with
    | none => exact absurd ((ringBuf_isEmpty_iff _).mpr ((pop_frame hr).2.2.2.mp rfl)) he
    | some v => exact .inr ⟨v, r, hr, rfl⟩

theorem guardPort_next {side : Side} {q : RingId} {s t : State} {o : Result} (h : guardPort side q s o = .next t) :
    portCheck side q s = none ∧ o = .next t := by
  unfold guardPort at h
  split at h
  · simp at h
  · rename_i e
    exact ⟨e, h⟩

theorem guardPort_ok {side : Side} {q : RingId} {s : State} (o : Result) (h : portCheck side q s = none) :
    guardPort side q s o = o := by
  simp [guardPort, h]

/-- The port check accepts exactly what `sideAllows` allows. -/
theorem portCheck_eq_none_iff (side : Side) (q : RingId) (s : State) :
    portCheck side q s = none ↔ sideAllows s.cfg.hasAux side q = true := by
  cases q <;> cases side <;> simp [portCheck, sideAllows]

theorem portCheck_producer {q : RingId} {s : State} : portCheck .producer q s = none ↔ s.FgProduces q := by
  cases q <;> simp [portCheck, State.FgProduces]

theorem portCheck_consumer {q : RingId} {s : State} : portCheck .consumer q s = none ↔ s.FgConsumes q := by
  cases q <;> simp [portCheck, State.FgConsumes]

theorem portCheck_status {q : RingId} {s : State} : portCheck .status q s = none ↔ s.RingExists q := by
  cases q <;> simp [portCheck, State.RingExists]

/-! ### The second steps of FG's operations and the handlers -/

/-- SP.COMMIT step 2 does nothing to the chain, or starts it. -/
theorem commitKick_next {s t : State} (h : commitKick s = .next t) :
    ((s.idle = false ∨ s.out.Empty) ∧ t = respondFree true (endOp { s with im := false }))
      ∨ ∃ v r, s.idle = true ∧ s.out.pop (.ring .out) s.cfg.nOut = .ok (some v, r)
          ∧ t = respondFree true (endOp
              { s with out := r, idle := false, txie := true, txd := v, txf := true, im := false }) := by
  unfold commitKick at h
  split at h
  · rename_i s' e
    simp only [Host.Outcome.next.injEq] at h
    subst h
    unfold startChain at e
    split at e
    · rename_i hc
      simp only [Bool.and_eq_true, Bool.not_eq_eq_eq_not, Bool.not_true] at hc
      split at e
      · rename_i v s'' e'
        obtain ⟨r, hr, rfl⟩ := pop_cases e'
        simp only [Except.ok.injEq] at e
        subst e
        exact .inr ⟨v, r, hc.1, hr, rfl⟩
      · rename_i s'' e'
        obtain ⟨r, hr, rfl⟩ := pop_cases e'
        have := (pop_frame hr).2.2.2.mp rfl
        exact absurd this ((ringBuf_isEmpty_eq_false_iff _).mp hc.2)
      · simp at e
    · rename_i hc
      simp only [Except.ok.injEq] at e
      subst e
      refine .inl ⟨?_, rfl⟩
      cases hi : s.idle
      · exact .inl rfl
      · refine .inr ((ringBuf_isEmpty_iff _).mp ?_)
        simpa [hi] using hc
  · simp at h

theorem encodeSecond_next {c : Byte} {s t : State} (h : encodeSecond c s = .next t) :
    ∃ ok r, s.out.writeTentative (.ring .out) s.cfg.nOut c = .ok (ok, r)
      ∧ t = respondFree ok (endOp { s with out := r }) :=
  stageAndRespond_next h

/-- TXI's move: nothing, a byte sent, or the chain stopped. -/
theorem isrTxe_next {s t : State} (h : isrTxe s = .next t) :
    (s.txeEnabled = false ∧ t = s)
      ∨ (s.txeEnabled = true ∧ s.out.Empty ∧ t = { s with txie := false, idle := true })
      ∨ ∃ v r, s.txeEnabled = true ∧ s.out.pop (.ring .out) s.cfg.nOut = .ok (some v, r)
          ∧ t = { s with out := r, txd := v, txf := true } := by
  unfold isrTxe at h
  split at h
  · rename_i hen
    unfold settle at h
    split at h
    · rename_i s' e
      simp only [Host.Outcome.next.injEq] at h
      subst h
      unfold txeBody at e
      split at e
      · rename_i v s'' e'
        obtain ⟨r, hr, rfl⟩ := pop_cases e'
        simp only [Except.ok.injEq] at e
        subst e
        exact .inr (.inr ⟨v, r, hen, hr, rfl⟩)
      · rename_i s'' e'
        obtain ⟨r, hr, rfl⟩ := pop_cases e'
        simp only [Except.ok.injEq] at e
        subst e
        have he := (pop_frame hr).2.2.2.mp rfl
        rw [pop_empty he] at hr
        simp only [Except.ok.injEq, Prod.mk.injEq, true_and] at hr
        subst hr
        exact .inr (.inl ⟨hen, he, rfl⟩)
      · simp at e
    · simp at h
  · rename_i hen
    simp only [Host.Outcome.next.injEq] at h
    exact .inl ⟨by simpa using hen, h.symm⟩

/-- RXI's move: nothing, or the byte taken, staged if there is room, and committed. -/
theorem isrRxc_next {s t : State} (h : isrRxc s = .next t) :
    (s.rxcEnabled = false ∧ t = s)
      ∨ ∃ ok r, s.rxcEnabled = true ∧ s.inp.writeTentative (.ring .inp) s.cfg.nIn s.rxd = .ok (ok, r)
          ∧ t = { s with rxc := false, inp := r.commit } := by
  unfold isrRxc at h
  split at h
  · rename_i hen
    unfold settle at h
    split at h
    · rename_i s' e
      simp only [Host.Outcome.next.injEq] at h
      subst h
      unfold rxcBody at e
      split at e
      · rename_i ok s'' e'
        obtain ⟨r, hr, rfl⟩ := stage_cases e'
        simp only [Except.ok.injEq] at e
        subst e
        exact .inr ⟨ok, r, hen, hr, rfl⟩
      · simp at e
    · simp at h
  · rename_i hen
    simp only [Host.Outcome.next.injEq] at h
    exact .inl ⟨by simpa using hen, h.symm⟩

/-! ### The codec -/

/-- FC.ENC's first step: one byte staged or not, or the ESC of a pair staged with its second byte to come. -/
theorem execFcEnc_next {b : Byte} {s t : State} (h : execFcEnc b s = .next t) :
    (escapeCode b = none ∧ stageAndRespond .out b s = .next t)
      ∨ ∃ c r, escapeCode b = some c
          ∧ ((s.out.writeTentative (.ring .out) s.cfg.nOut bESC = .ok (true, r)
                ∧ t = { s with out := r, fgPhase := .encSecond c })
              ∨ (s.out.writeTentative (.ring .out) s.cfg.nOut bESC = .ok (false, r)
                ∧ t = respondFree false { s with out := r })) := by
  unfold execFcEnc at h
  split at h
  · rename_i e
    exact .inl ⟨e, h⟩
  · rename_i c e
    split at h
    · rename_i s' e'
      obtain ⟨r, hr, rfl⟩ := stage_cases e'
      simp only [Host.Outcome.next.injEq] at h
      exact .inr ⟨c, r, e, .inl ⟨hr, h.symm⟩⟩
    · rename_i s' e'
      obtain ⟨r, hr, rfl⟩ := stage_cases e'
      simp only [Host.Outcome.next.injEq] at h
      exact .inr ⟨c, r, e, .inr ⟨hr, h.symm⟩⟩
    · simp at h

/-- FC.ENC sends END and ESC as pairs, any other byte as it is. -/
theorem escapeCode_some {b c : Byte} (h : escapeCode b = some c) :
    (b = bEND ∧ c = bESCEND) ∨ (b = bESC ∧ c = bESCESC) := by
  unfold escapeCode at h
  split at h
  · rename_i e
    exact .inl ⟨e, (Option.some.inj h).symm⟩
  · split at h
    · rename_i _ e
      exact .inr ⟨e, (Option.some.inj h).symm⟩
    · simp at h

/-- A frame store changes at most the frame buffer and its index. -/
theorem frameStore_frame (v : Byte) (s : State) :
    frameStore v s = { s with fcBuf := (frameStore v s).fcBuf, fcIdx := (frameStore v s).fcIdx } := by
  unfold frameStore
  split <;> rfl

/-- Every branch of FC.DEC answers a next state. -/
theorem execFcDec_next {b : Byte} {s t : State} (h : execFcDec b s = .next t) :
    (s.fcEsc = true ∧ t = respond false 0#16 (frameStore (unescape b) { s with fcEsc := false }))
      ∨ (s.fcEsc = false ∧ b = bESC ∧ t = respond false 0#16 { s with fcEsc := true })
      ∨ (s.fcEsc = false ∧ b = bEND ∧ t = respond true s.fcIdx { s with fcIdx := 0#16, fcEsc := false })
      ∨ (s.fcEsc = false ∧ b ≠ bESC ∧ b ≠ bEND ∧ t = respond false 0#16 (frameStore b s)) := by
  unfold execFcDec at h
  split at h
  · rename_i he
    exact .inl ⟨he, (Host.Outcome.next.inj h).symm⟩
  · rename_i he
    rw [Bool.not_eq_true] at he
    split at h
    · rename_i hb
      exact .inr (.inl ⟨he, hb, (Host.Outcome.next.inj h).symm⟩)
    · rename_i hb
      split at h
      · rename_i hc
        exact .inr (.inr (.inl ⟨he, hc, (Host.Outcome.next.inj h).symm⟩))
      · rename_i hc
        exact .inr (.inr (.inr ⟨he, hb, hc, (Host.Outcome.next.inj h).symm⟩))

/-! ### The step -/

theorem step_scheduled {s : State} {m : Move} {ms : List Move} (h : s.schedule = m :: ms) :
    step s = runMove m { s with schedule := ms } := by
  unfold step nextMove
  rw [h]

theorem step_unscheduled {s : State} (h : s.schedule = []) :
    step s = runMove (Config.freeMove s.draws) { s with draws := s.draws + 1 } := by
  unfold step nextMove
  rw [h]

/-- A step is one move of one agent, from the state less the choice of that agent. -/
theorem step_is_a_move (s : State) :
    ∃ m ms d, step s = runMove m { s with schedule := ms, draws := d } := by
  cases h : s.schedule with
  | cons m ms => exact ⟨m, ms, s.draws, step_scheduled h⟩
  | nil =>
    refine ⟨Config.freeMove s.draws, [], s.draws + 1, ?_⟩
    rw [step_unscheduled h, ← h]

/-- Everything FG's move can be. -/
theorem runMove_fg (s : State) :
    runMove .fg s =
      match s.fgPhase with
      | .published => commitKick s
      | .encSecond c => encodeSecond c s
      | .holding q => readWait q s
      | .idle =>
        match s.cmds with
        | w :: ws => issueWord w { s with cmds := ws, resp := none }
        | [] => .next s := by
  unfold runMove fgTurn
  cases s.fgPhase with
  | idle => cases s.cmds <;> rfl
  | published => rfl
  | encSecond c => rfl
  | holding q => rfl

end Sys2Proof.Machine
end

