-- ==== Sys2Proof/Laws/Decode.lean ====
section
/-! SUPPORT. The fields of a command word: taking them apart, putting them together, and masking them; what the operand
checks accept. -/

namespace Sys2Proof

@[simp] theorem cmdUnit_cmd32 (u f : Byte) (o : Half) : cmdUnit (cmd32 u f o) = u := by
  apply BitVec.eq_of_getLsbD_eq
  intro i hi
  simp only [cmdUnit, cmd32, BitVec.getLsbD_extractLsb', BitVec.getLsbD_append]
  simp [hi, show ¬24 + i < 16 by omega, show ¬24 + i - 16 < 8 by omega, show 24 + i - 16 - 8 = i by omega]

@[simp] theorem cmdFn_cmd32 (u f : Byte) (o : Half) : cmdFn (cmd32 u f o) = f := by
  apply BitVec.eq_of_getLsbD_eq
  intro i hi
  simp only [cmdFn, cmd32, BitVec.getLsbD_extractLsb', BitVec.getLsbD_append]
  simp [hi]

@[simp] theorem cmdOpnd_cmd32 (u f : Byte) (o : Half) : cmdOpnd (cmd32 u f o) = o := by
  apply BitVec.eq_of_getLsbD_eq
  intro i hi
  simp only [cmdOpnd, cmd32, BitVec.getLsbD_extractLsb', BitVec.getLsbD_append]
  simp [hi]

/-- A word is made of its three fields. -/
theorem cmd32_fields (w : Word) : cmd32 (cmdUnit w) (cmdFn w) (cmdOpnd w) = w := by
  apply BitVec.eq_of_getLsbD_eq
  intro i hi
  simp only [cmd32, cmdUnit, cmdFn, cmdOpnd, BitVec.getLsbD_extractLsb', BitVec.getLsbD_append]
  by_cases h : i < 16
  · simp [h]
  · by_cases h' : i - 16 < 8
    · simp [h, h', show 16 + (i - 16) = i by omega]
    · simp [h, h', show 24 + (i - 16 - 8) = i by omega, show i - 16 - 8 < 8 by omega]

/-- Words with the same fields are the same word. -/
theorem cmd32_inj {u f u' f' : Byte} {o o' : Half} : cmd32 u f o = cmd32 u' f' o' ↔ u = u' ∧ f = f' ∧ o = o' := by
  constructor
  · intro h
    have h1 := congrArg cmdUnit h
    have h2 := congrArg cmdFn h
    have h3 := congrArg cmdOpnd h
    simp only [cmdUnit_cmd32, cmdFn_cmd32, cmdOpnd_cmd32] at h1 h2 h3
    exact ⟨h1, h2, h3⟩
  · rintro ⟨rfl, rfl, rfl⟩
    rfl

/-- A mask acts on the three fields one by one. -/
theorem cmd32_and (u f u' f' : Byte) (o o' : Half) :
    cmd32 u f o &&& cmd32 u' f' o' = cmd32 (u &&& u') (f &&& f') (o &&& o') := by
  apply BitVec.eq_of_getLsbD_eq
  intro i hi
  simp only [cmd32, BitVec.getLsbD_and, BitVec.getLsbD_append]
  split_ifs <;> rfl

/-- A byte operand's field, and only such a field, is accepted as one. -/
theorem byteOperand_ok {o : Half} {mk : Byte → Instr} {i : Instr} (h : byteOperand o mk = .ok i) :
    ∃ b, i = mk b ∧ o = byteField b := by
  unfold byteOperand at h
  split at h
  · rename_i h8
    refine ⟨_, (Except.ok.inj h).symm, ?_⟩
    apply BitVec.eq_of_getLsbD_eq
    intro i hi
    simp only [byteField, BitVec.getLsbD_extractLsb', BitVec.getLsbD_append]
    by_cases hh : i < 8
    · simp [hh]
    · have := congrArg (fun x => x.getLsbD (i - 8)) h8
      simp only [BitVec.getLsbD_extractLsb', show 8 + (i - 8) = i by omega, show i - 8 < 8 by omega, decide_true,
        Bool.true_and] at this
      simp [hh, this]
  · simp at h

@[simp] theorem byteField_low (b : Byte) : (byteField b).extractLsb' 0 8 = b := by
  apply BitVec.eq_of_getLsbD_eq
  intro i hi
  simp only [byteField, BitVec.getLsbD_extractLsb', BitVec.getLsbD_append]
  simp [hi]

@[simp] theorem byteField_high (b : Byte) : (byteField b).extractLsb' 8 8 = 0 := by
  apply BitVec.eq_of_getLsbD_eq
  intro i hi
  simp only [byteField, BitVec.getLsbD_extractLsb', BitVec.getLsbD_append]
  simp

@[simp] theorem byteOperand_byteField (b : Byte) (mk : Byte → Instr) :
    byteOperand (byteField b) mk = .ok (mk b) := by
  rw [byteOperand, byteField_low, if_pos (byteField_high b)]

theorem noOperand_ok {o : Half} {k i : Instr} (h : noOperand o k = .ok i) : i = k ∧ o = 0 := by
  unfold noOperand at h
  split at h
  · exact ⟨(Except.ok.inj h).symm, by assumption⟩
  · simp at h

@[simp] theorem noOperand_zero (i : Instr) : noOperand 0#16 i = .ok i := rfl

end Sys2Proof
end

