-- ==== Sys2Proof/Laws/PerInstr.lean ====
section
/-! SUPPORT. One statement per operation, for every operation: its command word selects its own row of the opcode map
(30 R94). -/

namespace Sys2Proof

/-- Selecting a row is selecting it field by field. -/
theorem selects_cmd32 (n : String) (u f u' f' : Byte) (o o' : Half) (w : Word) :
    (OpcodeRow.mk n (cmd32 u f o) (cmd32 u' f' o')).selects w = true ↔
      cmdUnit w &&& u' = u ∧ cmdFn w &&& f' = f ∧ cmdOpnd w &&& o' = o := by
  unfold OpcodeRow.selects
  rw [beq_iff_eq]
  conv_lhs => rw [← cmd32_fields w, cmd32_and, cmd32_inj]

/-- An operation selects the row whose fields agree with those of its word. -/
theorem row_of_fields (i : Instr) {u f u' f' : Byte} {o o' : Half} {n : String}
    (hr : opcodeRow i = ⟨n, cmd32 u f o, cmd32 u' f' o'⟩) (hu : cmdUnit (encode i) &&& u' = u)
    (hf : cmdFn (encode i) &&& f' = f) (ho : cmdOpnd (encode i) &&& o' = o) :
    (opcodeRow i).selects (encode i) = true := by
  rw [hr]
  exact (selects_cmd32 _ _ _ _ _ _ _ _).mpr ⟨hu, hf, ho⟩

/-- The high byte of a byte operand's field is zero, whatever the byte. -/
theorem byteField_and (b : Byte) : byteField b &&& 0xFF00#16 = 0#16 := by
  apply BitVec.eq_of_getLsbD_eq
  intro i hi
  by_cases h : i < 8
  · interval_cases i <;> simp
  · simp only [byteField, BitVec.getLsbD_and, BitVec.getLsbD_append]
    simp [h]

namespace Laws.RowMatch

/-- The operation's command word selects the operation's row. -/
def Statement (i : Instr) : Prop := (opcodeRow i).selects (encode i) = true

theorem rbWt (q : RingId) (b : Byte) : Statement (.rbWt q b) := by
  exact row_of_fields (u := 0x00) (f := 0x00) (u' := 0xFC) (f' := 0xFF) (o := 0) (o' := 0xFF00) _ rfl
    (by rw [encode, cmdUnit_cmd32]; cases q <;> rfl)
    (by rw [encode, cmdFn_cmd32]; rfl)
    (by rw [encode, cmdOpnd_cmd32]; exact byteField_and b)

theorem rbCm (q : RingId) : Statement (.rbCm q) := by
  exact row_of_fields (u := 0x00) (f := 0x01) (u' := 0xFC) (f' := 0xFF) (o := 0) (o' := 0xFFFF) _ rfl
    (by rw [encode, cmdUnit_cmd32]; cases q <;> rfl)
    (by rw [encode, cmdFn_cmd32]; rfl)
    (by rw [encode, cmdOpnd_cmd32]; rfl)

theorem rbAb (q : RingId) : Statement (.rbAb q) := by
  exact row_of_fields (u := 0x00) (f := 0x02) (u' := 0xFC) (f' := 0xFF) (o := 0) (o' := 0xFFFF) _ rfl
    (by rw [encode, cmdUnit_cmd32]; cases q <;> rfl)
    (by rw [encode, cmdFn_cmd32]; rfl)
    (by rw [encode, cmdOpnd_cmd32]; rfl)

theorem rbRd (q : RingId) : Statement (.rbRd q) := by
  exact row_of_fields (u := 0x00) (f := 0x03) (u' := 0xFC) (f' := 0xFF) (o := 0) (o' := 0xFFFF) _ rfl
    (by rw [encode, cmdUnit_cmd32]; cases q <;> rfl)
    (by rw [encode, cmdFn_cmd32]; rfl)
    (by rw [encode, cmdOpnd_cmd32]; rfl)

theorem rbRdw (q : RingId) : Statement (.rbRdw q) := by
  exact row_of_fields (u := 0x00) (f := 0x04) (u' := 0xFC) (f' := 0xFF) (o := 0) (o' := 0xFFFF) _ rfl
    (by rw [encode, cmdUnit_cmd32]; cases q <;> rfl)
    (by rw [encode, cmdFn_cmd32]; rfl)
    (by rw [encode, cmdOpnd_cmd32]; rfl)

theorem rbPk (q : RingId) : Statement (.rbPk q) := by
  exact row_of_fields (u := 0x00) (f := 0x05) (u' := 0xFC) (f' := 0xFF) (o := 0) (o' := 0xFFFF) _ rfl
    (by rw [encode, cmdUnit_cmd32]; cases q <;> rfl)
    (by rw [encode, cmdFn_cmd32]; rfl)
    (by rw [encode, cmdOpnd_cmd32]; rfl)

theorem rbSz (q : RingId) : Statement (.rbSz q) := by
  exact row_of_fields (u := 0x00) (f := 0x06) (u' := 0xFC) (f' := 0xFF) (o := 0) (o' := 0xFFFF) _ rfl
    (by rw [encode, cmdUnit_cmd32]; cases q <;> rfl)
    (by rw [encode, cmdFn_cmd32]; rfl)
    (by rw [encode, cmdOpnd_cmd32]; rfl)

theorem rbEm (q : RingId) : Statement (.rbEm q) := by
  exact row_of_fields (u := 0x00) (f := 0x07) (u' := 0xFC) (f' := 0xFF) (o := 0) (o' := 0xFFFF) _ rfl
    (by rw [encode, cmdUnit_cmd32]; cases q <;> rfl)
    (by rw [encode, cmdFn_cmd32]; rfl)
    (by rw [encode, cmdOpnd_cmd32]; rfl)

theorem rbFl (q : RingId) : Statement (.rbFl q) := by
  exact row_of_fields (u := 0x00) (f := 0x08) (u' := 0xFC) (f' := 0xFF) (o := 0) (o' := 0xFFFF) _ rfl
    (by rw [encode, cmdUnit_cmd32]; cases q <;> rfl)
    (by rw [encode, cmdFn_cmd32]; rfl)
    (by rw [encode, cmdOpnd_cmd32]; rfl)

theorem spSend (b : Byte) : Statement (.spSend b) := by
  exact row_of_fields (u := 0x10) (f := 0x00) (u' := 0xFF) (f' := 0xFF) (o := 0) (o' := 0xFF00) _ rfl
    (by rw [encode, cmdUnit_cmd32]; rfl)
    (by rw [encode, cmdFn_cmd32]; rfl)
    (by rw [encode, cmdOpnd_cmd32]; exact byteField_and b)

theorem spCommit : Statement .spCommit := by
  exact row_of_fields (u := 0x10) (f := 0x01) (u' := 0xFF) (f' := 0xFF) (o := 0) (o' := 0xFFFF) _ rfl
    (by rw [encode, cmdUnit_cmd32]; rfl)
    (by rw [encode, cmdFn_cmd32]; rfl)
    (by rw [encode, cmdOpnd_cmd32]; rfl)

theorem spAvail : Statement .spAvail := by
  exact row_of_fields (u := 0x10) (f := 0x02) (u' := 0xFF) (f' := 0xFF) (o := 0) (o' := 0xFFFF) _ rfl
    (by rw [encode, cmdUnit_cmd32]; rfl)
    (by rw [encode, cmdFn_cmd32]; rfl)
    (by rw [encode, cmdOpnd_cmd32]; rfl)

theorem spGet : Statement .spGet := by
  exact row_of_fields (u := 0x10) (f := 0x03) (u' := 0xFF) (f' := 0xFF) (o := 0) (o' := 0xFFFF) _ rfl
    (by rw [encode, cmdUnit_cmd32]; rfl)
    (by rw [encode, cmdFn_cmd32]; rfl)
    (by rw [encode, cmdOpnd_cmd32]; rfl)

theorem spIdle : Statement .spIdle := by
  exact row_of_fields (u := 0x10) (f := 0x04) (u' := 0xFF) (f' := 0xFF) (o := 0) (o' := 0xFFFF) _ rfl
    (by rw [encode, cmdUnit_cmd32]; rfl)
    (by rw [encode, cmdFn_cmd32]; rfl)
    (by rw [encode, cmdOpnd_cmd32]; rfl)

theorem fcEnc (b : Byte) : Statement (.fcEnc b) := by
  exact row_of_fields (u := 0x20) (f := 0x00) (u' := 0xFF) (f' := 0xFF) (o := 0) (o' := 0xFF00) _ rfl
    (by rw [encode, cmdUnit_cmd32]; rfl)
    (by rw [encode, cmdFn_cmd32]; rfl)
    (by rw [encode, cmdOpnd_cmd32]; exact byteField_and b)

theorem fcEnd : Statement .fcEnd := by
  exact row_of_fields (u := 0x20) (f := 0x01) (u' := 0xFF) (f' := 0xFF) (o := 0) (o' := 0xFFFF) _ rfl
    (by rw [encode, cmdUnit_cmd32]; rfl)
    (by rw [encode, cmdFn_cmd32]; rfl)
    (by rw [encode, cmdOpnd_cmd32]; rfl)

theorem fcDec (b : Byte) : Statement (.fcDec b) := by
  exact row_of_fields (u := 0x20) (f := 0x02) (u' := 0xFF) (f' := 0xFF) (o := 0) (o' := 0xFF00) _ rfl
    (by rw [encode, cmdUnit_cmd32]; rfl)
    (by rw [encode, cmdFn_cmd32]; rfl)
    (by rw [encode, cmdOpnd_cmd32]; exact byteField_and b)

theorem fcIdxq : Statement .fcIdxq := by
  exact row_of_fields (u := 0x20) (f := 0x03) (u' := 0xFF) (f' := 0xFF) (o := 0) (o' := 0xFFFF) _ rfl
    (by rw [encode, cmdUnit_cmd32]; rfl)
    (by rw [encode, cmdFn_cmd32]; rfl)
    (by rw [encode, cmdOpnd_cmd32]; rfl)

theorem fcEscq : Statement .fcEscq := by
  exact row_of_fields (u := 0x20) (f := 0x04) (u' := 0xFF) (f' := 0xFF) (o := 0) (o' := 0xFFFF) _ rfl
    (by rw [encode, cmdUnit_cmd32]; rfl)
    (by rw [encode, cmdFn_cmd32]; rfl)
    (by rw [encode, cmdOpnd_cmd32]; rfl)

theorem fcRdb (i : Half) : Statement (.fcRdb i) := by
  exact row_of_fields (u := 0x20) (f := 0x05) (u' := 0xFF) (f' := 0xFF) (o := 0) (o' := 0) _ rfl
    (by rw [encode, cmdUnit_cmd32]; rfl)
    (by rw [encode, cmdFn_cmd32]; rfl)
    (by rw [encode, cmdOpnd_cmd32]; exact BitVec.and_zero)

theorem ckRst : Statement .ckRst := by
  exact row_of_fields (u := 0x30) (f := 0x00) (u' := 0xFF) (f' := 0xFF) (o := 0) (o' := 0xFFFF) _ rfl
    (by rw [encode, cmdUnit_cmd32]; rfl)
    (by rw [encode, cmdFn_cmd32]; rfl)
    (by rw [encode, cmdOpnd_cmd32]; rfl)

theorem ckUpd (b : Byte) : Statement (.ckUpd b) := by
  exact row_of_fields (u := 0x30) (f := 0x01) (u' := 0xFF) (f' := 0xFF) (o := 0) (o' := 0xFF00) _ rfl
    (by rw [encode, cmdUnit_cmd32]; rfl)
    (by rw [encode, cmdFn_cmd32]; rfl)
    (by rw [encode, cmdOpnd_cmd32]; exact byteField_and b)

theorem ckGet : Statement .ckGet := by
  exact row_of_fields (u := 0x30) (f := 0x02) (u' := 0xFF) (f' := 0xFF) (o := 0) (o' := 0xFFFF) _ rfl
    (by rw [encode, cmdUnit_cmd32]; rfl)
    (by rw [encode, cmdFn_cmd32]; rfl)
    (by rw [encode, cmdOpnd_cmd32]; rfl)

end Laws.RowMatch

end Sys2Proof
end

