-- ==== Sys2Proof/Machine/Assembler.lean ====
section
/-! DEFINITION. The assembler syntax of 30_encoding R96: how the spec writes an operation. -/

namespace Sys2Proof.Machine

/-- One hexadecimal digit. -/
def hexDigit (d : Nat) : Char :=
  ['0', '1', '2', '3', '4', '5', '6', '7', '8', '9', 'A', 'B', 'C', 'D', 'E', 'F'].getD d '0'

/-- A byte as R96 writes it, `0x41`. -/
def hexByte (b : Byte) : String := String.ofList ['0', 'x', hexDigit (b.toNat / 16), hexDigit (b.toNat % 16)]

/-- The name of an instance. -/
def ringName : RingId → String
  | .out => "OUT"
  | .inp => "IN"
  | .aux => "AUX"

/-- An operation written out: its mnemonic, then its operands separated by commas. -/
def assembly : Instr → String
  | .rbWt q b => "RB.WT " ++ ringName q ++ ", " ++ hexByte b
  | .rbCm q => "RB.CM " ++ ringName q
  | .rbAb q => "RB.AB " ++ ringName q
  | .rbRd q => "RB.RD " ++ ringName q
  | .rbRdw q => "RB.RDW " ++ ringName q
  | .rbPk q => "RB.PK " ++ ringName q
  | .rbSz q => "RB.SZ " ++ ringName q
  | .rbEm q => "RB.EM " ++ ringName q
  | .rbFl q => "RB.FL " ++ ringName q
  | .spSend b => "SP.SEND " ++ hexByte b
  | .spCommit => "SP.COMMIT"
  | .spAvail => "SP.AVAIL"
  | .spGet => "SP.GET"
  | .spIdle => "SP.IDLE"
  | .fcEnc b => "FC.ENC " ++ hexByte b
  | .fcEnd => "FC.END"
  | .fcDec b => "FC.DEC " ++ hexByte b
  | .fcIdxq => "FC.IDXQ"
  | .fcEscq => "FC.ESCQ"
  | .fcRdb i => "FC.RDB " ++ toString i.toNat
  | .ckRst => "CK.RST"
  | .ckUpd b => "CK.UPD " ++ hexByte b
  | .ckGet => "CK.GET"

end Sys2Proof.Machine
end

