-- ==== Sys2Proof/Machine/Pseudo.lean ====
section
/-! DEFINITION. The pseudo-operations of 30_encoding R99 as the sequences of operations that FG issues. They have no
command word of their own. Where R99 uses the result of a member (FR.CRC, FR.FINISH, RX.POLL), the sequence takes that
result as an argument (log 24). -/

namespace Sys2Proof.Machine

/-- RB.RT q. -/
def pseudoRbRt (q : RingId) : List Instr := [.rbAb q]

/-- RB.PUT q, b: none where it is no legal FG command, which is on OUT and on IN ("As an FG command it is legal on AUX
only"). What the RXC handler does on IN is `rxcBody`. The two members as commands of their own stay under 30 R97
(DEDUCED, log 26). -/
def pseudoRbPut (q : RingId) (b : Byte) : Option (List Instr) :=
  match q with
  | .aux => some [.rbWt .aux b, .rbCm .aux]
  | .out => none
  | .inp => none

/-- FR.BEGIN. -/
def pseudoFrBegin : List Instr := [.fcEnd, .ckRst]

/-- FR.BYTE b. -/
def pseudoFrByte (b : Byte) : List Instr := [.ckUpd b, .fcEnc b]

/-- FR.CRC, where CK.GET answers `c`: the checksum little-endian (30 R84). -/
def pseudoFrCrc (c : Half) : List Instr :=
  [.ckGet, .fcEnc (c.extractLsb' 0 8), .fcEnc (c.extractLsb' 8 8)]

/-- FR.FINISH, where CK.GET answers `c`. -/
def pseudoFrFinish (c : Half) : List Instr := pseudoFrCrc c ++ [.fcEnd, .spCommit]

/-- RX.POLL, where SP.AVAIL answers `avail` and SP.GET answers `b`. -/
def pseudoRxPoll (avail : Bool) (b : Byte) : List Instr :=
  if avail then [.spAvail, .spGet, .fcDec b] else [.spAvail]

end Sys2Proof.Machine
end

