-- ==== Sys2Proof/Tests/Slice0.lean ====
section
/-! SUPPORT. Tests against the words of 30 R94 and the vectors of 95, and for every statement that has hypotheses a
state that meets them, one for each of its clauses. -/

namespace Sys2Proof.Tests

open Sys2Proof.Machine

/-! ### Helpers -/

/-- Parameters with every capacity `n` and AUX present. -/
def cfgOf (n : Nat) : Config := ⟨n, n, true, n, n, .either, 0x0000#16⟩

/-- A ring buffer in the notation of 95: (read, write, tentative, full) and its written elements. -/
def rb (r w t : Byte) (f : Bool) (m : Memory) : RingBuf := ⟨m, r, w, t, f⟩

/-- Reset with these buffers. -/
def st (n : Nat) (out inp aux : RingBuf) : State := { State.resetFor (cfgOf n) with out := out, inp := inp, aux := aux }

/-- Reset with this AUX. -/
def withAux (n : Nat) (q : RingBuf) : State := st n RingBuf.reset RingBuf.reset q

/-- Reset with this OUT. -/
def withOut (n : Nat) (q : RingBuf) : State := st n q RingBuf.reset RingBuf.reset

/-- Reset with this IN. -/
def withInp (n : Nat) (q : RingBuf) : State := st n RingBuf.reset q RingBuf.reset

/-- Elements 0, 1, 2, … in order. -/
def cells : List Byte → Memory := fun bs => (bs.zipIdx).map (fun p => (p.2, p.1))

/-- A transmit chain that runs: `TXIE`, and `TXD` as `f` says. -/
def running (s : State) (f : Bool) (d : Byte) : State := { s with idle := false, txie := true, txf := f, txd := d }

/-- The parts of the invariants that can be decided at once. -/
theorem inv_of_parts {s : State}
    (h : s.cfg.Valid ∧ s.out.Inv s.cfg.nOut ∧ s.inp.Inv s.cfg.nIn ∧ s.aux.Inv s.cfg.nAux
      ∧ s.inp.tentative = s.inp.write ∧ s.idle = !s.txie ∧ (s.idle = true → s.txf = false) ∧ s.im = false
      ∧ s.fcIdx.toNat ≤ s.cfg.frameCap ∧ Memory.Wf s.fcBuf ∧ Memory.Below s.cfg.frameCap s.fcBuf)
    (hp : s.PhaseOk) : s.Inv :=
  ⟨h.1, h.2.1, h.2.2.1, h.2.2.2.1, h.2.2.2.2.1, h.2.2.2.2.2.1, h.2.2.2.2.2.2.1, h.2.2.2.2.2.2.2.1,
    h.2.2.2.2.2.2.2.2.1, h.2.2.2.2.2.2.2.2.2.1, h.2.2.2.2.2.2.2.2.2.2, hp⟩

/-! ### What FG may issue (30 R97), and an ill-formed operation for each side -/

theorem test_wellFormed_accepts :
    Instr.wellFormed true (.rbWt .aux 0x11#8) = true ∧ Instr.wellFormed false (.rbRd .inp) = true
    ∧ Instr.wellFormed false (.rbSz .inp) = true ∧ Instr.wellFormed false .spCommit = true := by decide

theorem test_wellFormed_refuses_producer_on_in :
    Instr.wellFormed true (.rbWt .inp 0x41#8) = false ∧ Instr.wellFormed true (.rbCm .inp) = false
    ∧ Instr.wellFormed true (.rbAb .inp) = false := by decide

theorem test_wellFormed_refuses_consumer_on_out :
    Instr.wellFormed true (.rbRd .out) = false ∧ Instr.wellFormed true (.rbRdw .out) = false
    ∧ Instr.wellFormed true (.rbPk .out) = false := by decide

theorem test_wellFormed_refuses_absent_aux :
    Instr.wellFormed false (.rbWt .aux 0x11#8) = false ∧ Instr.wellFormed false (.rbRd .aux) = false
    ∧ Instr.wellFormed false (.rbSz .aux) = false := by decide

/-! ### Decoding: words from 30 R94 and the programs of 95 -/

theorem test_decode_rb :
    decode 0x00000041#32 = .ok (.rbWt .out 0x41#8) ∧ decode 0x02000055#32 = .ok (.rbWt .aux 0x55#8)
    ∧ decode 0x02010000#32 = .ok (.rbCm .aux) ∧ decode 0x00020000#32 = .ok (.rbAb .out)
    ∧ decode 0x01030000#32 = .ok (.rbRd .inp) ∧ decode 0x01040000#32 = .ok (.rbRdw .inp)
    ∧ decode 0x02050000#32 = .ok (.rbPk .aux) ∧ decode 0x00060000#32 = .ok (.rbSz .out)
    ∧ decode 0x02070000#32 = .ok (.rbEm .aux) ∧ decode 0x02080000#32 = .ok (.rbFl .aux) := by decide

theorem test_decode_sp :
    decode 0x10000041#32 = .ok (.spSend 0x41#8) ∧ decode 0x10010000#32 = .ok .spCommit
    ∧ decode 0x10020000#32 = .ok .spAvail ∧ decode 0x10030000#32 = .ok .spGet
    ∧ decode 0x10040000#32 = .ok .spIdle := by decide

theorem test_decode_fc :
    decode 0x200000E5#32 = .ok (.fcEnc 0xE5#8) ∧ decode 0x20010000#32 = .ok .fcEnd
    ∧ decode 0x200200DB#32 = .ok (.fcDec 0xDB#8) ∧ decode 0x20030000#32 = .ok .fcIdxq
    ∧ decode 0x20040000#32 = .ok .fcEscq ∧ decode 0x20050003#32 = .ok (.fcRdb 3#16)
    ∧ decode 0x2005FFFE#32 = .ok (.fcRdb 0xFFFE#16) := by decide

theorem test_decode_ck :
    decode 0x30000000#32 = .ok .ckRst ∧ decode 0x3001000D#32 = .ok (.ckUpd 0x0D#8)
    ∧ decode 0x30020000#32 = .ok .ckGet := by decide

/-- 95 T10 and 30 R98. -/
theorem test_decode_refuses :
    decode 0x03060000#32 = .error .reservedRing ∧ decode 0x00090000#32 = .error .unknownFunction
    ∧ decode 0x00000141#32 = .error .operandHighByte ∧ decode 0x10010001#32 = .error .operandNotZero
    ∧ decode 0x04000000#32 = .error .unknownUnit ∧ decode 0x30030000#32 = .error .unknownFunction := by decide

/-- 30 R94: no word selects two rows. -/
theorem test_rows_disjoint :
    opcodeMap.Pairwise (fun r r' => r.mask &&& r'.mask &&& (r.pattern ^^^ r'.pattern) ≠ 0#32) := by decide

theorem test_decodeTableWord :
    decodeTableWord 32 0x200200DB = some (.fcDec 0xDB#8) ∧ decodeTableWord 32 0x03060000 = none := by decide

/-! ### Unit RB (95 T1 to T9, N = 4 unless said) -/

/-- T3: the byte that fills the buffer. -/
theorem test_rbWt_fills :
    ∃ t, exec (.rbWt .aux 0x04#8) (withAux 4 (rb 0 2 3 false (cells [0x01, 0x02, 0x03]))) = .next t
      ∧ t.aux = rb 0 2 0 true (cells [0x01, 0x02, 0x03, 0x04]) ∧ t.Answered true := ⟨_, rfl, by decide, _, rfl⟩

/-- T8: N = 1, a full buffer. -/
theorem test_rbWt_full :
    ∃ t, exec (.rbWt .aux 0x7F#8) (withAux 1 (rb 0 0 0 true (cells [0x7E]))) = .next t
      ∧ t.aux = rb 0 0 0 true (cells [0x7E]) ∧ t.Answered false := ⟨_, rfl, by decide, _, rfl⟩

/-- T1. -/
theorem test_rbCm :
    ∃ t, exec (.rbCm .aux) (withAux 4 (rb 0 0 3 false (cells [0x11, 0x22, 0x33]))) = .next t
      ∧ t.aux = rb 0 3 3 false (cells [0x11, 0x22, 0x33]) ∧ t.Answered true := ⟨_, rfl, by decide, _, rfl⟩

/-- T4: the discard un-fills the buffer. -/
theorem test_rbAb_unfills :
    ∃ t, exec (.rbAb .aux) (withAux 4 (rb 0 2 0 true (cells [0x01, 0x02, 0x03, 0x04]))) = .next t
      ∧ t.aux = rb 0 2 2 false (cells [0x01, 0x02, 0x03, 0x04]) ∧ t.Answered true := ⟨_, rfl, by decide, _, rfl⟩

/-- T5: N bytes staged into an empty buffer stay. -/
theorem test_rbAb_changes_nothing :
    ∃ t, exec (.rbAb .aux) (withAux 4 (rb 0 0 0 true (cells [0xD0, 0xD1, 0xD2, 0xD3]))) = .next t
      ∧ t.aux = rb 0 0 0 true (cells [0xD0, 0xD1, 0xD2, 0xD3]) := ⟨_, rfl, by decide⟩

/-- T6: N = 3, the read wraps and clears `full`. -/
theorem test_rbRd_wraps :
    ∃ t, exec (.rbRd .aux) (withAux 3 (rb 2 2 2 true (cells [0x04, 0x05, 0x03]))) = .next t
      ∧ t.aux = rb 0 2 2 false (cells [0x04, 0x05, 0x03]) ∧ t.resp = some 0x00010003#32 :=
  ⟨_, rfl, by decide, by decide⟩

/-- T1: staged bytes are not read before the commit. -/
theorem test_rbRd_empty :
    ∃ t, exec (.rbRd .aux) (withAux 4 (rb 0 0 3 false (cells [0x11, 0x22, 0x33]))) = .next t
      ∧ t.aux = rb 0 0 3 false (cells [0x11, 0x22, 0x33]) ∧ t.Answered false := ⟨_, rfl, by decide, _, rfl⟩

/-- 41 R122's example, FG still holding. -/
theorem test_rbRdw_holds :
    ∃ t, exec (.rbRdw .inp) (withInp 4 (rb 2 2 2 false [])) = .next t
      ∧ t.fgPhase = .holding .inp ∧ t.inp = rb 2 2 2 false [] ∧ t.resp = none :=
  ⟨_, rfl, by decide, by decide, by decide⟩

/-- 41 R122's example, the hold lifted. -/
theorem test_rbRdw_reads :
    ∃ t, step { withInp 4 (rb 2 3 3 false [(2, 0x7A#8)]) with fgPhase := .holding .inp, schedule := [.fg] } = .next t
      ∧ t.fgPhase = .idle ∧ t.inp = rb 3 3 3 false [(2, 0x7A#8)] ∧ t.resp = some 0x0001007A#32 :=
  ⟨_, rfl, by decide, by decide, by decide⟩

/-- T9. -/
theorem test_rbPk :
    ∃ t, exec (.rbPk .aux) (withAux 4 (rb 1 3 3 false (cells [0x11, 0x22, 0x33]))) = .next t
      ∧ t.aux = rb 1 3 3 false (cells [0x11, 0x22, 0x33]) ∧ t.resp = some 0x00010022#32 :=
  ⟨_, rfl, by decide, by decide⟩

/-- T7. -/
theorem test_rbSz :
    (∃ t, exec (.rbSz .aux) (withAux 4 (rb 3 1 1 false [])) = .next t ∧ t.resp = some 0x00010002#32)
    ∧ ∃ t, exec (.rbSz .aux) (withAux 4 (rb 3 1 3 true [])) = .next t ∧ t.resp = some 0x00010004#32 :=
  ⟨⟨_, rfl, by decide⟩, _, rfl, by decide⟩

/-- 41 R125: the mathematical remainder, not an 8-bit wrap: (0 - 2) mod 3 = 1, while 254 mod 3 = 2. -/
theorem test_rbSz_remainder :
    ∃ t, exec (.rbSz .aux) (withAux 3 (rb 2 0 0 false [])) = .next t ∧ t.resp = some 0x00010001#32 :=
  ⟨_, rfl, by decide⟩

/-- 41 R117's examples. -/
theorem test_rbEm :
    (∃ t, exec (.rbEm .aux) (withAux 4 (rb 3 3 3 false [])) = .next t ∧ t.resp = some 0x00010001#32)
    ∧ ∃ t, exec (.rbEm .aux) (withAux 4 (rb 0 0 0 true [])) = .next t ∧ t.resp = some 0x00010000#32 :=
  ⟨⟨_, rfl, by decide⟩, _, rfl, by decide⟩

/-- 41 R118's example. -/
theorem test_rbFl :
    ∃ t, exec (.rbFl .aux) (withAux 4 (rb 0 2 0 true [])) = .next t ∧ t.resp = some 0x00010001#32 :=
  ⟨_, rfl, by decide⟩

/-- T10. -/
theorem test_rb_refused :
    exec (.rbRd .out) State.reset = .refused (.wrongSide .out)
    ∧ exec (.rbWt .inp 0x41#8) State.reset = .refused (.wrongSide .inp)
    ∧ exec (.rbSz .aux) State.reset = .refused .auxAbsent := ⟨rfl, rfl, rfl⟩

/-! ### Unit SP and the handlers (95 V1 to V8) -/

/-- V8. -/
theorem test_spSend :
    ∃ t, exec (.spSend 0x44#8) (withOut 4 (rb 0 0 3 false (cells [0x41, 0x42, 0x43]))) = .next t
      ∧ t.out = rb 0 0 0 true (cells [0x41, 0x42, 0x43, 0x44]) ∧ t.Answered true := ⟨_, rfl, by decide, _, rfl⟩

/-- V1, step 1. -/
theorem test_spCommit_publishes :
    ∃ t, exec .spCommit (withOut 4 (rb 0 0 1 false (cells [0x41]))) = .next t
      ∧ t.out = rb 0 1 1 false (cells [0x41]) ∧ t.commitPhase = .published ∧ t.idle = true :=
  ⟨_, rfl, by decide, by decide, by decide⟩

/-- V1, step 2. -/
theorem test_spCommit_kicks :
    ∃ t, step { withOut 4 (rb 0 1 1 false (cells [0x41])) with fgPhase := .published, schedule := [.fg] } = .next t
      ∧ t.out = rb 1 1 1 false (cells [0x41])
      ∧ (t.idle, t.txie, t.txf, t.txd, t.im, t.commitPhase) = (false, true, true, 0x41#8, false, .none)
      ∧ t.Answered true := ⟨_, rfl, by decide, by decide, _, rfl⟩

/-- V5. -/
theorem test_spAvail :
    (∃ t, exec .spAvail (withInp 2 (rb 0 0 0 false [])) = .next t ∧ t.resp = some 0x00010000#32)
    ∧ ∃ t, exec .spAvail (withInp 2 (rb 0 1 1 false (cells [0x0A]))) = .next t ∧ t.resp = some 0x00010001#32 :=
  ⟨⟨_, rfl, by decide⟩, _, rfl, by decide⟩

/-- V5. -/
theorem test_spGet :
    ∃ t, exec .spGet (withInp 2 (rb 0 1 1 false (cells [0x0A]))) = .next t
      ∧ t.inp = rb 1 1 1 false (cells [0x0A]) ∧ t.resp = some 0x0001000A#32 := ⟨_, rfl, by decide, by decide⟩

/-- 42 R147's example. -/
theorem test_spIdle :
    (∃ t, exec .spIdle State.reset = .next t ∧ t.resp = some 0x00010001#32)
    ∧ ∃ t, exec .spIdle (running State.reset false 0x41#8) = .next t ∧ t.resp = some 0x00010000#32 :=
  ⟨⟨_, rfl, by decide⟩, _, rfl, by decide⟩

/-- V2: the handler takes the next byte. -/
theorem test_isrTxe_sends :
    ∃ t, isrTxe (running (withOut 4 (rb 1 3 3 false (cells [0x41, 0x42, 0x43]))) false 0x41#8) = .next t
      ∧ t.out = rb 2 3 3 false (cells [0x41, 0x42, 0x43]) ∧ (t.txf, t.txd, t.idle) = (true, 0x42#8, false) :=
  ⟨_, rfl, by decide, by decide⟩

/-- V4: a staged byte is not sent and the chain stops. -/
theorem test_isrTxe_stops :
    ∃ t, isrTxe (running (withOut 4 (rb 1 1 2 false (cells [0x41, 0x42]))) false 0x41#8) = .next t
      ∧ t.out = rb 1 1 2 false (cells [0x41, 0x42]) ∧ (t.txf, t.txd, t.idle, t.txie) = (false, 0x41#8, true, false) :=
  ⟨_, rfl, by decide, by decide⟩

/-- V6: the second byte fills IN, the third is lost. -/
theorem test_isrRxc :
    (∃ t, isrRxc { withInp 2 (rb 0 1 1 false (cells [0x0A])) with rxd := 0x0B#8, rxc := true } = .next t
      ∧ t.inp = rb 0 0 0 true (cells [0x0A, 0x0B]) ∧ t.rxc = false)
    ∧ ∃ t, isrRxc { withInp 2 (rb 0 0 0 true (cells [0x0A, 0x0B])) with rxd := 0x0C#8, rxc := true } = .next t
      ∧ t.inp = rb 0 0 0 true (cells [0x0A, 0x0B]) ∧ t.rxc = false :=
  ⟨⟨_, rfl, by decide, by decide⟩, _, rfl, by decide, by decide⟩

/-- V1. -/
theorem test_wireTake :
    (wireTake (running State.reset true 0x41#8)).wireOut = [0x41#8]
    ∧ (wireTake (running State.reset true 0x41#8)).txf = false := by decide

/-- V7, under `either`. -/
theorem test_wireArrive_overrun :
    (wireArrive 0x0B#8 .dropNew { State.reset with rxd := 0x0A#8, rxc := true }).rxd = 0x0A#8
    ∧ (wireArrive 0x0B#8 .dropOld { State.reset with rxd := 0x0A#8, rxc := true }).rxd = 0x0B#8
    ∧ (wireArrive 0x0B#8 .dropOld { State.reset with rxd := 0x0A#8, rxc := true }).wireIn = [0x0B#8] := by decide

/-! ### Unit FC (95 F1 to F6) -/

/-- F1. -/
theorem test_slipEnc :
    slipEnc 0xC0#8 = [0xDB#8, 0xDC#8] ∧ slipEnc 0xDB#8 = [0xDB#8, 0xDD#8] ∧ slipEnc 0xDC#8 = [0xDC#8]
    ∧ slipEnc 0xDD#8 = [0xDD#8] ∧ slipEnc 0xBF#8 = [0xBF#8] := by decide

/-- F6: OUT has room for the ESC of the pair. -/
theorem test_fcEnc_first :
    ∃ t, exec (.fcEnc 0xC0#8) (withOut 8 (rb 0 0 7 false [])) = .next t
      ∧ t.out = rb 0 0 0 true [(7, 0xDB#8)] ∧ t.fgPhase = .encSecond 0xDC#8 := ⟨_, rfl, by decide, by decide⟩

/-- F6: and none for the byte after it. -/
theorem test_fcEnc_second :
    ∃ t, step { withOut 8 (rb 0 0 0 true [(7, 0xDB#8)]) with fgPhase := .encSecond 0xDC#8, schedule := [.fg] } = .next t
      ∧ t.out = rb 0 0 0 true [(7, 0xDB#8)] ∧ t.fgPhase = .idle ∧ t.Answered false :=
  ⟨_, rfl, by decide, by decide, _, rfl⟩

/-- 43 R172's example. -/
theorem test_fcEnd :
    ∃ t, exec .fcEnd State.reset = .next t ∧ t.out = rb 0 0 1 false [(0, 0xC0#8)] ∧ t.Answered true :=
  ⟨_, rfl, by decide, _, rfl⟩

/-- F3: at capacity the mapped byte is dropped and the escape is still cleared. -/
theorem test_fcDec_drops :
    ∃ t, exec (.fcDec 0xDC#8) { withOut 4 RingBuf.reset with
        fcIdx := 4, fcEsc := true, fcBuf := cells [0x01, 0x02, 0x03, 0x04] } = .next t
      ∧ (t.fcIdx, t.fcEsc, t.fcBuf) = (4#16, false, cells [0x01, 0x02, 0x03, 0x04])
      ∧ t.resp = some 0x00000000#32 := ⟨_, rfl, by decide, by decide⟩

/-- F4: an END after an ESC is data; F3: an END is the end of a frame. -/
theorem test_fcDec_end :
    (∃ t, exec (.fcDec 0xC0#8) { withOut 8 RingBuf.reset with fcIdx := 1, fcEsc := true, fcBuf := [(0, 0xDB#8)] } = .next t
      ∧ (t.fcIdx, t.fcEsc, t.fcBuf) = (2#16, false, [(0, 0xDB#8), (1, 0xC0#8)]) ∧ t.resp = some 0x00000000#32)
    ∧ ∃ t, exec (.fcDec 0xC0#8) { withOut 4 RingBuf.reset with fcIdx := 4 } = .next t
      ∧ (t.fcIdx, t.fcEsc) = (0#16, false) ∧ t.resp = some 0x00010004#32 :=
  ⟨⟨_, rfl, by decide, by decide⟩, _, rfl, by decide, by decide⟩

/-- 43 R177's and R179's examples. -/
theorem test_fcIdxq_fcEscq :
    (∃ t, exec .fcIdxq { State.reset with fcIdx := 1 } = .next t ∧ t.resp = some 0x00010001#32)
    ∧ ∃ t, exec .fcEscq { State.reset with fcEsc := true } = .next t ∧ t.resp = some 0x00010001#32 :=
  ⟨⟨_, rfl, by decide⟩, _, rfl, by decide⟩

/-- F2: the last element, and F itself. -/
theorem test_fcRdb :
    (∃ t, exec (.fcRdb 3#16) { withOut 4 RingBuf.reset with fcBuf := cells [0x01, 0xC0, 0xDB, 0x02] } = .next t
      ∧ t.resp = some 0x00010002#32)
    ∧ ∃ t, exec (.fcRdb 4#16) { withOut 4 RingBuf.reset with fcBuf := cells [0x01, 0xC0, 0xDB, 0x02] } = .next t
      ∧ t.Answered false := ⟨⟨_, rfl, by decide⟩, _, rfl, _, rfl⟩

/-! ### Unit CK (95 X1 to X22) -/

/-- 44 R190's example. -/
theorem test_ckRst : ∃ t, exec .ckRst State.reset = .next t ∧ t.ckAcc = 0x0000#16 ∧ t.Answered true :=
  ⟨_, rfl, by decide, _, rfl⟩

/-- X1 to X13. -/
theorem test_ckUpd :
    ckUpdate 0x0000#16 0x01#8 = 0x1189#16 ∧ ckUpdate 0x0000#16 0xFF#8 = 0x0F78#16
    ∧ ckUpdate 0xFFFF#16 0x00#8 = 0x0F87#16 ∧ ckUpdate 0x1234#16 0xAB#8 = 0x6C6C#16
    ∧ ckUpdate 0x0000#16 0x80#8 = 0x8408#16 ∧ ckUpdate 0x0000#16 0xC0#8 = 0xC60C#16
    ∧ ckUpdate 0xFFFF#16 0xFF#8 = 0x00FF#16 ∧ ckUpdate 0x8000#16 0x00#8 = 0x0080#16
    ∧ ckUpdate 0xABCD#16 0xC0#8 = 0xDB4E#16 := by decide

/-- X14, X15 and X22: whole strings. -/
theorem test_ckUpd_strings :
    [0x31#8, 0x32#8, 0x33#8, 0x34#8, 0x35#8, 0x36#8, 0x37#8, 0x38#8, 0x39#8].foldl ckUpdate 0x0000#16 = 0x2189#16
    ∧ [0x74#8, 0x6F#8, 0x70#8, 0x69#8, 0x63#8].foldl ckUpdate 0x0000#16 = 0x70F6#16
    ∧ [0x31#8, 0x32#8, 0x33#8, 0x34#8, 0x35#8, 0x36#8, 0x37#8, 0x38#8, 0x39#8].foldl ckUpdate 0xFFFF#16
      = 0x6F91#16 := by decide

/-- 44 R193's example. -/
theorem test_ckGet : ∃ t, exec .ckGet { State.reset with ckAcc := 0x1189#16 } = .next t ∧ t.resp = some 0x00011189#32 :=
  ⟨_, rfl, by decide⟩

/-! ### The step and the pseudo-operations -/

/-- A word placed for the next step is issued and run by it, and leaves the list. -/
theorem test_withFetchWord :
    ∃ t, step (State.reset.withFetchWord 32 0x00000041) = .next t
      ∧ t.out = rb 0 0 1 false [(0, 0x41#8)] ∧ t.cmds = [] ∧ t.schedule = [] ∧ t.Answered true :=
  ⟨_, rfl, by decide, by decide, by decide, _, rfl⟩

/-- 95 T10: a word with no meaning. -/
theorem test_step_refuses :
    step (State.reset.withFetchWord 32 0x00090000) = .refused (.illegalCommand .unknownFunction) := rfl

/-- 30 R99 and 95 P3, steps 7 to 11. -/
theorem test_pseudoFrFinish :
    pseudoFrFinish 0xDBE5#16 = [.ckGet, .fcEnc 0xE5#8, .fcEnc 0xDB#8, .fcEnd, .spCommit] := by decide

/-- 30 R99: RB.PUT is legal for FG on AUX only. -/
theorem test_pseudoRbPut :
    pseudoRbPut .aux 0x11#8 = some [.rbWt .aux 0x11#8, .rbCm .aux] ∧ pseudoRbPut .out 0x11#8 = none
    ∧ pseudoRbPut .inp 0x11#8 = none := by decide

/-- 30 R96's examples. -/
theorem test_assembly :
    assembly (.rbWt .out 0x41#8) = "RB.WT OUT, 0x41" ∧ assembly (.rbCm .aux) = "RB.CM AUX"
    ∧ assembly .spCommit = "SP.COMMIT" ∧ assembly (.fcRdb 3#16) = "FC.RDB 3" := by decide

/-! ### States and operands that meet the statements' hypotheses -/

/-- Every memory at reset is in canonical form (20 R60). -/
theorem test_reset_memories :
    Memory.Wf State.reset.out.buf ∧ Memory.Wf State.reset.inp.buf ∧ Memory.Wf State.reset.aux.buf
    ∧ Memory.Wf State.reset.fcBuf := by decide

/-- Half full, the chain running, a byte received, one staged in OUT: a state with every agent enabled. -/
def busy : State :=
  { running (st 4 (rb 3 0 1 false [(0, 0x42#8), (3, 0x41#8)]) (rb 2 1 1 false (cells [0x30, 0x31, 0x32, 0x33]))
      (rb 0 2 0 true (cells [0x11, 0x22, 0x33, 0x44]))) false 0x40#8 with
    rxd := 0x7A#8, rxc := true, fcIdx := 4, fcBuf := cells [0x01, 0x02, 0x03, 0x04] }

/-- The port idle, four committed bytes in OUT, a command word waiting. -/
def atRest : State :=
  { st 4 (rb 0 0 0 true (cells [0x41, 0x42, 0x43, 0x44])) (rb 1 1 1 false []) RingBuf.reset with
    cmds := [0x10010000#32] }

theorem test_inv_busy : busy.Inv := inv_of_parts (by decide) trivial

theorem test_inv_atRest : atRest.Inv := inv_of_parts (by decide) trivial

theorem test_backed_busy : busy.Backed := by decide

theorem test_backed_atRest : atRest.Backed := by decide

theorem test_meets_EncodeOfDecode : decode 0x200500FF#32 = .ok (.fcRdb 0xFF#16) := by decide

theorem test_meets_DecodeFollowsOpcodeMap :
    (opcodeRow (.rbFl .out)).selects 0x02080000#32 = true
    ∧ decode 0x02080000#32 = .ok (.rbFl .aux)
    ∧ (opcodeRow (.rbFl .out)).selects 0x03080000#32 = true ∧ decode 0x03080000#32 = .error .reservedRing := by decide

theorem test_meets_OperandsLieAsAssembled :
    decode 0x020000FF#32 = .ok (.rbWt .aux 0xFF#8) ∧ byteArg (.rbWt .aux 0xFF#8) = some 0xFF#8
    ∧ decode 0x2005FFFF#32 = .ok (.fcRdb 0xFFFF#16)
    ∧ decode 0x02070000#32 = .ok (.rbEm .aux) ∧ Instr.ringUse (.rbEm .aux) = some (.status, .aux)
    ∧ decode 0x30020000#32 = .ok .ckGet ∧ byteArg .ckGet = none ∧ (∀ n, Instr.ckGet ≠ .fcRdb n) :=
  ⟨by decide, by decide, by decide, by decide, by decide, by decide, by decide, fun _ h => Instr.noConfusion h⟩

theorem test_meets_StepTakesOneMove :
    ({ busy with schedule := [.txe, .fg] } : State).schedule = .txe :: [.fg] ∧ busy.schedule = []
    ∧ ({ busy with schedule := [.fg] } : State).schedule = .fg :: [] ∧ busy.fgPhase = .idle ∧ busy.cmds = [] := by decide

theorem test_meets_StepRunsTheDecodedOperation :
    ({ atRest with schedule := [.fg] } : State).schedule = .fg :: [] ∧ atRest.fgPhase = .idle
    ∧ atRest.cmds = 0x10010000#32 :: [] ∧ decode 0x10010000#32 = .ok .spCommit := by decide

theorem test_meets_StepRefusesWordWithNoMeaning :
    ({ atRest with schedule := [.fg], cmds := [0x04000000#32] } : State).fgPhase = .idle
    ∧ decode 0x04000000#32 = .error .unknownUnit := by decide

/-- Room at the last index, and a full buffer, at N = 255 and at N = 1, on OUT and on AUX. -/
theorem test_meets_RbWtStagesOneByte :
    (withOut 255 (rb 3 254 254 false [])).cfg.Valid ∧ (withOut 255 (rb 3 254 254 false [])).FgProduces .out
    ∧ ((withOut 255 (rb 3 254 254 false [])).ring .out).tentative.toNat < (withOut 255 (rb 3 254 254 false [])).cap .out
    ∧ ((withOut 255 (rb 3 254 254 false [])).ring .out).full = false
    ∧ (withAux 1 (rb 0 0 0 true [])).cfg.Valid ∧ (withAux 1 (rb 0 0 0 true [])).FgProduces .aux
    ∧ ((withAux 1 (rb 0 0 0 true [])).ring .aux).tentative.toNat < (withAux 1 (rb 0 0 0 true [])).cap .aux
    ∧ ((withAux 1 (rb 0 0 0 true [])).ring .aux).full = true := by decide

theorem test_meets_RbCmPublishes : busy.FgProduces .out ∧ busy.FgProduces .aux := by decide

/-- Something staged (in AUX, which it fills), and nothing staged. -/
theorem test_meets_RbAbDiscards :
    busy.FgProduces .aux ∧ (busy.ring .aux).tentative ≠ (busy.ring .aux).write
    ∧ atRest.FgProduces .out ∧ (atRest.ring .out).tentative = (atRest.ring .out).write := by decide

/-- A byte at the last index, and an empty buffer, on IN and on AUX. RB.PK, RB.RDW, SP.GET have the same conditions. -/
theorem test_meets_RbRdPops :
    (withInp 255 (rb 254 0 0 false [])).cfg.Valid ∧ (withInp 255 (rb 254 0 0 false [])).FgConsumes .inp
    ∧ ((withInp 255 (rb 254 0 0 false [])).ring .inp).read.toNat < (withInp 255 (rb 254 0 0 false [])).cap .inp
    ∧ ¬((withInp 255 (rb 254 0 0 false [])).ring .inp).Empty
    ∧ (withAux 1 (rb 0 0 0 false [])).cfg.Valid ∧ (withAux 1 (rb 0 0 0 false [])).FgConsumes .aux
    ∧ ((withAux 1 (rb 0 0 0 false [])).ring .aux).read.toNat < (withAux 1 (rb 0 0 0 false [])).cap .aux
    ∧ ((withAux 1 (rb 0 0 0 false [])).ring .aux).Empty := by decide

theorem test_meets_RbPkLooks :
    atRest.FgConsumes .inp ∧ (atRest.ring .inp).read.toNat < atRest.cap .inp ∧ (atRest.ring .inp).Empty
    ∧ busy.FgConsumes .aux ∧ (busy.ring .aux).read.toNat < busy.cap .aux ∧ ¬(busy.ring .aux).Empty := by decide

theorem test_meets_RbRdwHoldsWhileEmpty :
    (atRest.ring .inp).Empty ∧ atRest.FgConsumes .inp
    ∧ ({ atRest with fgPhase := .holding .inp, schedule := [.fg] } : State).fgPhase = .holding .inp := by decide

theorem test_meets_RbRdwReadsWhenThereIsAByte :
    busy.cfg.Valid ∧ (busy.ring .inp).read.toNat < busy.cap .inp ∧ ¬(busy.ring .inp).Empty ∧ busy.FgConsumes .inp
    ∧ ({ busy with fgPhase := .holding .inp, schedule := [.fg] } : State).fgPhase = .holding .inp := by decide

/-- A full buffer, and one that is not full. -/
theorem test_meets_RbStatusAnswers :
    busy.cfg.Valid ∧ busy.RingExists .aux ∧ (busy.ring .aux).full = true
    ∧ busy.RingExists .inp ∧ (busy.ring .inp).full = false := by decide

/-- N = 1 empty and full; N = 255 with room. -/
theorem test_meets_StatusAgreesWithReadAndWrite :
    (rb 0 0 0 false []).InRange 1 ∧ (rb 0 0 0 true []).InRange 1 ∧ (rb 254 0 253 false []).InRange 255 := by decide

theorem test_meets_WrongSideIsRefused :
    State.reset.cfg.hasAux = false ∧ Instr.ringUse (.rbSz .aux) = some (.status, .aux)
    ∧ Instr.ringUse (.rbWt .aux 0#8) = some (.producer, .aux)
    ∧ Instr.ringUse (.rbRdw .aux) = some (.consumer, .aux) := by decide

/-- As many bytes as the buffer holds, and none. -/
theorem test_meets_CommittedBytesComeBackInOrder :
    (withAux 3 (rb 2 2 2 false [])).cfg.Valid ∧ (withAux 3 (rb 2 2 2 false [])).cfg.hasAux = true
    ∧ (withAux 3 (rb 2 2 2 false [])).aux.InRange (withAux 3 (rb 2 2 2 false [])).cfg.nAux
    ∧ (withAux 3 (rb 2 2 2 false [])).aux.Empty
    ∧ (withAux 3 (rb 2 2 2 false [])).aux.tentative = (withAux 3 (rb 2 2 2 false [])).aux.write
    ∧ [0x03#8, 0x04#8, 0x05#8].length ≤ (withAux 3 (rb 2 2 2 false [])).cfg.nAux
    ∧ ([] : List Byte).length ≤ (withAux 3 (rb 2 2 2 false [])).cfg.nAux := by decide

/-- A transaction shorter than N from an empty buffer, and N bytes offered to one that holds a byte. -/
theorem test_meets_AbortRestoresSizeAndEmpty :
    (withAux 4 (rb 3 3 3 false [])).Inv ∧ (withAux 4 (rb 3 3 3 false [])).FgProduces .aux
    ∧ [0x01#8, 0x02#8, 0x03#8].length < (withAux 4 (rb 3 3 3 false [])).cap .aux
    ∧ (withAux 4 (rb 0 1 1 false (cells [0xA1]))).Inv
    ∧ ¬((withAux 4 (rb 0 1 1 false (cells [0xA1]))).ring .aux).Empty :=
  ⟨inv_of_parts (by decide) trivial, by decide, by decide, inv_of_parts (by decide) trivial, by decide⟩

theorem test_meets_FullTransactionIsVisibleUncommitted :
    (withOut 1 (rb 0 0 0 false [])).Inv ∧ (withOut 1 (rb 0 0 0 false [])).FgProduces .out
    ∧ ((withOut 1 (rb 0 0 0 false [])).ring .out).tentative = ((withOut 1 (rb 0 0 0 false [])).ring .out).write
    ∧ ((withOut 1 (rb 0 0 0 false [])).ring .out).Empty
    ∧ [0x7E#8].length = (withOut 1 (rb 0 0 0 false [])).cap .out :=
  ⟨inv_of_parts (by decide) trivial, by decide, by decide, by decide, by decide⟩

/-- OUT with room and full: the conditions of SP.SEND, FC.END and FC.ENC, at the last index. -/
theorem test_meets_SpSendStages :
    (withOut 4 (rb 0 0 3 false [])).cfg.Valid
    ∧ (withOut 4 (rb 0 0 3 false [])).out.tentative.toNat < (withOut 4 (rb 0 0 3 false [])).cfg.nOut
    ∧ (withOut 4 (rb 0 0 3 false [])).out.full = false
    ∧ atRest.cfg.Valid ∧ atRest.out.tentative.toNat < atRest.cfg.nOut ∧ atRest.out.full = true := by decide

/-- SP.COMMIT's second step with the port idle and a byte to send. -/
theorem test_meets_SpCommitStepTwoStartsTheChain :
    atRest.cfg.Valid ∧ atRest.out.read.toNat < atRest.cfg.nOut ∧ atRest.idle = true ∧ ¬atRest.out.Empty
    ∧ ({ atRest with fgPhase := .published, schedule := [.fg] } : State).fgPhase = .published := by decide

/-- SP.COMMIT's second step with the chain running, and with nothing to send. -/
theorem test_meets_SpCommitStepTwoLeavesTheChain :
    ({ busy with fgPhase := .published, schedule := [.fg] } : State).fgPhase = .published ∧ busy.idle = false
    ∧ (withOut 4 (rb 2 2 2 false [])).out.Empty := by decide

theorem test_meets_AfterSpCommitChainRunsOrOutIsEmpty :
    ({ atRest with fgPhase := .published, schedule := [.fg] } : State).Inv
    ∧ (∃ t, step { atRest with fgPhase := .published, schedule := [.fg] } = .next t)
    ∧ ({ withOut 4 (rb 2 2 2 false []) with fgPhase := .published, schedule := [.fg] } : State).Inv
    ∧ ∃ t, step { withOut 4 (rb 2 2 2 false []) with fgPhase := .published, schedule := [.fg] } = .next t :=
  ⟨inv_of_parts (by decide) trivial, ⟨_, rfl⟩, inv_of_parts (by decide) trivial, _, rfl⟩

theorem test_meets_SpGetPopsIn :
    busy.cfg.Valid ∧ busy.inp.read.toNat < busy.cfg.nIn ∧ ¬busy.inp.Empty
    ∧ atRest.cfg.Valid ∧ atRest.inp.read.toNat < atRest.cfg.nIn ∧ atRest.inp.Empty := by decide

/-- A byte sent verbatim next to each reserved one, and FC.END; OUT as in `test_meets_SpSendStages`. -/
theorem test_meets_FcEncVerbatimAndFcEnd :
    (0xDC#8 ≠ 0xC0#8 ∧ 0xDC#8 ≠ 0xDB#8) ∧ (0xBF#8 ≠ 0xC0#8 ∧ 0xBF#8 ≠ 0xDB#8)
    ∧ (Instr.fcEnd = .fcEnd ∧ (0xC0#8 : Byte) = 0xC0#8) ∧ atRest.cfg.Valid
    ∧ atRest.out.tentative.toNat < atRest.cfg.nOut := by decide

/-- FC.ENC's first step with room for the ESC, and without. -/
theorem test_meets_FcEncEscapedFirstStep :
    (withOut 8 (rb 0 0 7 false [])).cfg.Valid
    ∧ (withOut 8 (rb 0 0 7 false [])).out.tentative.toNat < (withOut 8 (rb 0 0 7 false [])).cfg.nOut
    ∧ (withOut 8 (rb 0 0 7 false [])).out.full = false ∧ atRest.out.full = true := by decide

/-- FC.ENC's second step with room, and without. -/
theorem test_meets_FcEncEscapedSecondStep :
    busy.cfg.Valid ∧ busy.out.tentative.toNat < busy.cfg.nOut ∧ busy.out.full = false ∧ atRest.out.full = true
    ∧ ({ busy with fgPhase := .encSecond 0xDD#8, schedule := [.fg] } : State).fgPhase = .encSecond 0xDD#8 := by decide

/-- FC.DEC at capacity and below it, after an ESC and not. -/
theorem test_meets_FcDecBranches :
    busy.cfg.Valid ∧ busy.fcIdx.toNat ≤ busy.cfg.frameCap ∧ ¬busy.fcIdx.toNat < busy.cfg.frameCap ∧ busy.fcEsc = false
    ∧ ({ atRest with fcIdx := 3, fcEsc := true } : State).fcIdx.toNat < atRest.cfg.frameCap
    ∧ ((0x41#8 : Byte) ≠ 0xDB#8 ∧ (0x41#8 : Byte) ≠ 0xC0#8) := by decide

/-- FC.RDB at the last element and one past it. -/
theorem test_meets_FcReadBackAnswers :
    (3#16).toNat < busy.cfg.frameCap ∧ busy.cfg.frameCap ≤ (4#16).toNat := by decide

/-- A payload longer than F that holds both reserved bytes. -/
theorem test_meets_SlipRoundTrip :
    (withOut 2 RingBuf.reset).cfg.Valid ∧ (withOut 2 RingBuf.reset).fcIdx = 0#16
    ∧ (withOut 2 RingBuf.reset).fcEsc = false
    ∧ 0 < 5 ∧ 5 ≤ ([0x01#8, 0xC0#8, 0xDB#8].flatMap slipEnc).length
    ∧ (withOut 2 RingBuf.reset).cfg.frameCap < [0x01#8, 0xC0#8, 0xDB#8].length := by decide

/-- ISR.TXE with a byte to send at the last index, and with none. -/
theorem test_meets_IsrTxeSendsOrStops :
    busy.cfg.Valid ∧ busy.out.read.toNat < busy.cfg.nOut ∧ busy.txie = true ∧ busy.txf = false ∧ busy.im = false
    ∧ ¬busy.out.Empty ∧ (running (withOut 4 (rb 3 3 0 false [])) false 0x41#8).txie = true
    ∧ (running (withOut 4 (rb 3 3 0 false [])) false 0x41#8).out.Empty := by decide

/-- ISR.RXC with room, and with IN full. -/
theorem test_meets_IsrRxcStagesAndCommits :
    busy.cfg.Valid ∧ busy.inp.tentative.toNat < busy.cfg.nIn ∧ busy.inp.tentative = busy.inp.write
    ∧ busy.rxc = true ∧ busy.im = false ∧ busy.inp.full = false
    ∧ (withInp 2 (rb 1 1 1 true [])).inp.tentative.toNat < (withInp 2 (rb 1 1 1 true [])).cfg.nIn
    ∧ (withInp 2 (rb 1 1 1 true [])).inp.full = true := by decide

/-- Each handler disabled by each of its own conditions. -/
theorem test_meets_HandlersRunOnlyWhenEnabled :
    ¬(atRest.txie = true ∧ atRest.txf = false ∧ atRest.im = false)
    ∧ ¬((running busy true 0x41#8).txie = true ∧ (running busy true 0x41#8).txf = false
      ∧ (running busy true 0x41#8).im = false)
    ∧ ¬(atRest.rxc = true ∧ atRest.im = false) := by decide

theorem test_meets_HandlersCommute : busy.Inv ∧ busy.txeEnabled = true ∧ busy.rxcEnabled = true :=
  ⟨test_inv_busy, by decide, by decide⟩

/-- WIRE.TAKE with a byte and without, WIRE.ARRIVE with RXC clear and, under each parameter, set. -/
theorem test_meets_WireTakesAndArrives :
    (running busy true 0x41#8).txf = true ∧ busy.txf = false ∧ atRest.rxc = false ∧ busy.rxc = true
    ∧ busy.cfg.rxOverrun = .either
    ∧ ({ busy with cfg := { cfgOf 4 with rxOverrun := .forbidden } } : State).cfg.rxOverrun = .forbidden
    ∧ ({ busy with cfg := { cfgOf 4 with rxOverrun := .dropNew } } : State).cfg.rxOverrun = .dropNew
    ∧ ({ busy with cfg := { cfgOf 4 with rxOverrun := .dropOld } } : State).cfg.rxOverrun = .dropOld := by decide

/-- The smallest and the largest parameters. -/
theorem test_meets_InvariantsHoldAtReset :
    (cfgOf 1).Valid ∧ ({ cfgOf 255 with frameCap := 65535 } : Config).Valid ∧ resetConfig.Valid := by decide

/-- The premises of the statements about every step: a state with the invariants, and a step it takes, for each agent. -/
theorem test_meets_StepKeepsInvariants :
    busy.Inv ∧ busy.Backed
    ∧ (∃ t, step { busy with schedule := [.txe] } = .next t) ∧ (∃ t, step { busy with schedule := [.rxc] } = .next t)
    ∧ (∃ t, step { busy with schedule := [.take] } = .next t)
    ∧ (∃ t, step { busy with schedule := [.arrive 0x55#8 .dropOld] } = .next t)
    ∧ ∃ t, step { atRest with schedule := [.fg] } = .next t :=
  ⟨test_inv_busy, by decide, ⟨_, rfl⟩, ⟨_, rfl⟩, ⟨_, rfl⟩, ⟨_, rfl⟩, _, rfl⟩

/-- An operation on its side and one off it. -/
theorem test_meets_AcceptedOperationsRun :
    busy.Inv ∧ Instr.wellFormed busy.cfg.hasAux (.rbPk .aux) = true
    ∧ Instr.wellFormed busy.cfg.hasAux (.rbPk .out) = false := ⟨test_inv_busy, by decide, by decide⟩

/-- FG's sub-state a legal one; a step of an agent that is none of FG, RXI and TXI, one of them between the two steps of
an SP.COMMIT; and a step of FG that is not SP.COMMIT's second. -/
theorem test_meets_OwnersOfTheIndices :
    ({ busy with fgPhase := .encSecond 0xDC#8 } : State).PhaseOk
    ∧ (∃ t, step { busy with fgPhase := .encSecond 0xDC#8, schedule := [.fg] } = .next t)
    ∧ ¬(Move.fg = .fg ∧ ({ busy with fgPhase := .encSecond 0xDC#8 } : State).fgPhase = .published)
    ∧ ({ busy with fgPhase := .published } : State).PhaseOk
    ∧ (∃ t, step { busy with fgPhase := .published, schedule := [.take] } = .next t)
    ∧ (Move.take ≠ .fg ∧ Move.take ≠ .rxc ∧ Move.take ≠ .txe)
    ∧ ¬(Move.take = .fg ∧ ({ busy with fgPhase := .published } : State).fgPhase = .published) :=
  ⟨.inl rfl, ⟨_, rfl⟩, by decide, trivial, ⟨_, rfl⟩, by decide, by decide⟩

/-- A step that clears `idle` and one that sets it. -/
theorem test_meets_OnlyKickAndHandlerMoveIdle :
    (∃ t, step { atRest with fgPhase := .published, schedule := [.fg] } = .next t
      ∧ atRest.idle = true ∧ t.idle = false ∧ t.txie = true)
    ∧ ∃ t, step { running (withOut 4 (rb 2 2 2 false [])) false 0x41#8 with schedule := [.txe] } = .next t
      ∧ t.idle = true ∧ t.txie = false := ⟨⟨_, rfl, by decide, by decide, by decide⟩, _, rfl, by decide, by decide⟩

theorem test_meets_CodecAndChecksumBelongToFg :
    (∃ t, step { busy with schedule := [.txe] } = .next t) ∧ Move.txe ≠ .fg
    ∧ (∃ t, exec .fcEnd busy = .next t) ∧ Instr.fcEnd ≠ .ckRst ∧ ∀ b, Instr.fcEnd ≠ .ckUpd b :=
  ⟨⟨_, rfl⟩, by decide, ⟨_, rfl⟩, by decide, fun _ h => Instr.noConfusion h⟩

theorem test_meets_ReadOnlyOperationsHaveNoSideEffect :
    readOnly (.rbPk .inp) = true ∧ (∃ t, exec (.rbPk .inp) busy = .next t)
    ∧ readOnly (.fcRdb 4#16) = true ∧ ∃ t, exec (.fcRdb 4#16) busy = .next t := ⟨rfl, ⟨_, rfl⟩, rfl, _, rfl⟩

theorem test_meets_QuiescentBlockIsStill : atRest.Inv ∧ atRest.Quiescent := ⟨test_inv_atRest, by decide⟩

theorem test_meets_AvailAndRoomAreStable :
    busy.Inv ∧ busy.inp.isEmpty = false ∧ busy.out.full = false ∧ (Move.rxc ≠ .fg)
    ∧ ∃ t, step { busy with schedule := [.rxc] } = .next t := ⟨test_inv_busy, by decide, by decide, by decide, _, rfl⟩

theorem test_meets_TransmitChainKeepsTheBytes :
    busy.Inv ∧ (∃ t, step { busy with schedule := [.txe] } = .next t)
    ∧ (running busy true 0x41#8).Inv ∧ (∃ t, step { running busy true 0x41#8 with schedule := [.take] } = .next t)
    ∧ ({ atRest with fgPhase := .published, schedule := [.fg] } : State).Inv
    ∧ ∃ t, step { atRest with fgPhase := .published, schedule := [.fg] } = .next t :=
  ⟨test_inv_busy, ⟨_, rfl⟩, inv_of_parts (by decide) trivial, ⟨_, rfl⟩, inv_of_parts (by decide) trivial, _, rfl⟩

/-- A chain with a byte in `TXD` and one more committed, and the schedule that drains it. -/
theorem test_meets_ChainDrainsOut :
    (running busy true 0x40#8).Inv ∧ (running busy true 0x40#8).idle = false
    ∧ 1 = (running busy true 0x40#8).out.committed (running busy true 0x40#8).cfg.nOut
    ∧ ({ running busy true 0x40#8 with schedule := [.take, .txe, .take, .txe] } : State).schedule
      = (List.replicate (1 + 1) [Move.take, Move.txe]).flatten ++ [] :=
  ⟨inv_of_parts (by decide) trivial, by decide, by decide, by decide⟩

end Sys2Proof.Tests
end

namespace Sys2Proof.Machine

/-! ### One use of a ring buffer -/

/-- What one use of a buffer makes of it: a producer stages (41 R110), publishes (R112) or discards (R113); a consumer
reads (R114). -/
inductive RingBuf.Used (sp : Space) (n : Nat) (q : RingBuf) : Side → RingBuf → Prop
  | stage {b : Byte} {ok : Bool} {r : RingBuf} : q.writeTentative sp n b = .ok (ok, r) → Used sp n q .producer r
  | commit : Used sp n q .producer q.commit
  | abort : Used sp n q .producer q.abort
  | pop {v : Option Byte} {r : RingBuf} : q.pop sp n = .ok (v, r) → Used sp n q .consumer r

theorem abort_frame (q : RingBuf) : q.abort.read = q.read ∧ q.abort.write = q.write ∧ q.abort.buf = q.buf := by
  unfold RingBuf.abort
  split <;> exact ⟨rfl, rfl, rfl⟩

theorem RingBuf.Used.producer_read {sp : Space} {n : Nat} {q r : RingBuf} (h : q.Used sp n .producer r) :
    r.read = q.read := by
  cases h with
  | stage h => exact (writeTentative_frame h).1
  | commit => rfl
  | abort => exact (abort_frame q).1

theorem RingBuf.Used.consumer_frame {sp : Space} {n : Nat} {q r : RingBuf} (h : q.Used sp n .consumer r) :
    r.write = q.write ∧ r.tentative = q.tentative ∧ r.buf = q.buf := by
  cases h with
  | pop h =>
    obtain ⟨hw, ht, hb, -⟩ := pop_frame h
    exact ⟨hw, ht, hb⟩

theorem RingBuf.Used.keeps_inv {sp : Space} {n : Nat} {q r : RingBuf} {side : Side} (h : q.Used sp n side r)
    (hn : n ≤ 255) (hq : q.Inv n) : r.Inv n := by
  cases h with
  | stage h => exact writeTentative_keeps_inv hn hq h
  | commit => exact commit_keeps_inv hq
  | abort => exact abort_keeps_inv hq
  | pop h => exact pop_keeps_inv hn hq h

/-! ### Unread bytes -/

/-- The number of unread bytes, committed and staged (10_state R23 (b)). -/
abbrev RingBuf.total (n : Nat) (q : RingBuf) : Nat := q.committed n + q.staged n

theorem total_staging {n : Nat} {q : RingBuf} (b : Byte) (hn : n ≤ 255) (hq : q.Inv n) (hf : q.full = false) :
    (q.staging n b).total n = q.total n + 1 := staging_total hn hq hf rfl

theorem full_iff_total {n : Nat} {q : RingBuf} (hq : q.Inv n) : q.full = true ↔ q.total n = n := by
  obtain ⟨-, -, hfull, -⟩ := hq
  exact hfull

/-- No more unread bytes than before, in the same array from the same `read` on. -/
theorem backed_of_total_le {n : Nat} {q r : RingBuf} (hread : r.read = q.read) (hbuf : r.buf = q.buf)
    (hle : r.total n ≤ q.total n) (hq : q.Backed n) : r.Backed n := by
  intro k hk
  rw [hread, hbuf]
  exact hq k (hk.trans_le hle)

/-- The one new unread byte lies at `tentative`, which the write has filled. -/
theorem staging_keeps_backed {n : Nat} {q : RingBuf} (b : Byte) (hn : n ≤ 255) (hq : q.Inv n) (hf : q.full = false)
    (hb : q.Backed n) : (q.staging n b).Backed n := by
  intro k hk
  have hk := hk.trans_eq (total_staging b hn hq hf)
  change (Memory.look (Memory.store q.buf q.tentative.toNat b) ((q.read.toNat + k) % n)).isSome = true
  by_cases hi : (q.read.toNat + k) % n = q.tentative.toNat
  · rw [hi, look_store_self]
    rfl
  · have hne : k ≠ q.total n := fun e => hi (e ▸ (tentative_eq_mod hq).symm)
    rw [look_store_of_ne _ _ hi]
    exact hb k (Nat.lt_of_le_of_ne (Nat.lt_succ_iff.mp hk) hne)

theorem popping_keeps_backed {n : Nat} {q : RingBuf} (hn : n ≤ 255) (hq : q.Inv n) (he : ¬q.Empty)
    (hb : q.Backed n) : (q.popping n).Backed n := by
  intro k hk
  obtain ⟨hc, hs⟩ := pop_counts hn hq he
  have h0 := hq.1.1
  have hidx : ((q.popping n).read.toNat + k) % n = (q.read.toNat + (k + 1)) % n := by
    rw [RingBuf.popping, incN_toNat _ (by omega) hn, Nat.mod_add_mod, Nat.add_assoc, Nat.add_comm 1]
  rw [hidx]
  rw [RingBuf.popping, hs] at hk
  exact hb (k + 1) (by omega)

theorem RingBuf.Used.keeps_backed {sp : Space} {n : Nat} {q r : RingBuf} {side : Side} (h : q.Used sp n side r)
    (hn : n ≤ 255) (hq : q.Inv n) (hb : q.Backed n) : r.Backed n := by
  cases h with
  | stage h =>
    cases hf : q.full
    · rw [writeTentative_room _ hf hq.1.2.2] at h
      obtain ⟨-, rfl⟩ := Prod.mk.inj (Except.ok.inj h)
      exact staging_keeps_backed _ hn hq hf hb
    · rw [writeTentative_full _ hf] at h
      obtain ⟨-, rfl⟩ := Prod.mk.inj (Except.ok.inj h)
      exact hb
  | commit =>
    obtain ⟨hc, hs⟩ := commit_total hq
    exact backed_of_total_le (q := q) rfl rfl (by rw [RingBuf.total, hc, hs]; exact le_rfl) hb
  | abort =>
    obtain ⟨hc, hs⟩ := abort_total hq
    obtain ⟨hread, -, hbuf⟩ := abort_frame q
    exact backed_of_total_le hread hbuf (by rw [RingBuf.total, hc, hs]; exact Nat.le_add_right _ _) hb
  | pop h =>
    by_cases he : q.Empty
    · rw [pop_empty he] at h
      obtain ⟨-, rfl⟩ := Prod.mk.inj (Except.ok.inj h)
      exact hb
    · rw [pop_byte he hq.1.1] at h
      obtain ⟨-, rfl⟩ := Prod.mk.inj (Except.ok.inj h)
      exact popping_keeps_backed hn hq he hb

/-! ### What FG's move can do -/

/-- Between `s` and `t` FG has taken one step of an operation other than SP.COMMIT's second: each ring buffer is as it
was or has been used once, on a side FG has there (30 R97); the codec is as it was, restarted, or has stored one byte;
CK.acc is `a`. A hold on a buffer FG does not consume from is shut out by `PhaseOk`. -/
structure FgRan (a : Half) (s t : State) : Prop where
  frame : t = { s with
    out := t.out, inp := t.inp, aux := t.aux, fgPhase := t.fgPhase, fcBuf := t.fcBuf, fcIdx := t.fcIdx
    fcEsc := t.fcEsc, ckAcc := a, cmds := t.cmds, resp := t.resp, draws := t.draws }
  ring : ∀ q, t.ring q = s.ring q ∨ ∃ side, (s.PhaseOk → portCheck side q s = none)
    ∧ (s.ring q).Used (.ring q) (s.cap q) side (t.ring q)
  codec : (t.fcBuf = s.fcBuf ∧ (t.fcIdx = s.fcIdx ∨ t.fcIdx = 0#16))
    ∨ (s.fcIdx.toNat < s.cfg.frameCap ∧ t.fcIdx = s.fcIdx + 1
      ∧ ∃ v, t.fcBuf = Memory.store s.fcBuf s.fcIdx.toNat v)
  phase : s.PhaseOk → t.PhaseOk

namespace FgRan

theorem refl (s : State) : FgRan s.ckAcc s s := ⟨rfl, fun _ => .inl rfl, .inl ⟨rfl, .inl rfl⟩, id⟩

/-- FG's sub-state, words and response are the command port's, which a step may have changed before the operation. -/
theorem of_port {a : Half} {s s' t : State} (h : FgRan a s' t)
    (hs : s' = { s with fgPhase := s'.fgPhase, cmds := s'.cmds, resp := s'.resp }) (hp : s.PhaseOk → s'.PhaseOk) :
    FgRan a s t := by
  obtain ⟨hframe, hring, hcodec, hphase⟩ := h
  rw [hs] at hframe hring hcodec
  refine ⟨hframe, fun q => (hring q).imp id ?_, hcodec, hphase ∘ hp⟩
  rintro ⟨side, hc, hu⟩
  exact ⟨side, fun ok => hc (hs ▸ hp ok), hu⟩

/-- One use of buffer `q`, on a side FG has there. -/
theorem use {s : State} {q : RingId} {side : Side} {r : RingBuf} (hp : s.PhaseOk → portCheck side q s = none)
    (hu : (s.ring q).Used (.ring q) (s.cap q) side r) : FgRan s.ckAcc s (s.setRing q r) := by
  refine ⟨rfl, fun p => ?_, .inl ⟨rfl, .inl rfl⟩, id⟩
  by_cases e : p = q
  · subst e
    exact .inr ⟨side, hp, by rwa [ring_setRing_self]⟩
  · exact .inl (ring_setRing_of_ne s r e)

section
variable {a : Half} {s t : State} (h : FgRan a s t)
include h

theorem respond (ok : Bool) (d : Half) : FgRan a s (respond ok d t) :=
  ⟨congrArg (Machine.respond ok d) h.frame, by simpa using h.ring, h.codec, h.phase⟩

theorem respondFree (ok : Bool) : FgRan a s (respondFree ok t) :=
  ⟨congrArg (Machine.respondFree ok) h.frame, by simpa using h.ring, h.codec, h.phase⟩

theorem respondByte (v : Option Byte) : FgRan a s (respondByte v t) := by
  cases v with
  | none => exact h.respondFree false
  | some b => exact h.respond true _

theorem setPhase (p : FgPhase) (hp : s.PhaseOk → State.PhaseOk { t with fgPhase := p }) :
    FgRan a s { t with fgPhase := p } :=
  ⟨congrArg (fun t : State => { t with fgPhase := p }) h.frame, h.ring, h.codec, hp⟩

end

/-! ### The shared operations, each as FG runs it -/

theorem of_stageAndRespond {q : RingId} {b : Byte} {s t : State} (hq : s.FgProduces q)
    (h : stageAndRespond q b s = .next t) : FgRan s.ckAcc s t := by
  obtain ⟨ok, r, hr, rfl⟩ := stageAndRespond_next h
  exact (use (fun _ => portCheck_producer.mpr hq) (.stage hr)).respondFree ok

theorem of_popAndRespond {q : RingId} {s t : State} (hq : s.FgConsumes q)
    (h : popAndRespond q s = .next t) : FgRan s.ckAcc s t := by
  obtain ⟨v, r, hr, rfl⟩ := popAndRespond_next h
  exact (use (fun _ => portCheck_consumer.mpr hq) (.pop hr)).respondByte v

theorem of_readWait {q : RingId} {s t : State} (hq : s.PhaseOk → s.FgConsumes q)
    (h : readWait q s = .next t) : FgRan s.ckAcc s t := by
  rcases readWait_next h with ⟨-, rfl⟩ | ⟨v, r, hr, rfl⟩
  · exact (refl s).setPhase _ hq
  · have hu : FgRan s.ckAcc s (s.setRing q r) := use (fun ok => portCheck_consumer.mpr (hq ok)) (.pop hr)
    exact (hu.setPhase .idle fun _ => trivial).respond true _

theorem of_encodeSecond {c : Byte} {s t : State} (h : encodeSecond c s = .next t) : FgRan s.ckAcc s t :=
  (of_stageAndRespond (.inl rfl) h).of_port (s' := endOp s) rfl fun _ => trivial

theorem of_execFcEnc {b : Byte} {s t : State} (h : execFcEnc b s = .next t) : FgRan s.ckAcc s t := by
  rcases execFcEnc_next h with ⟨-, h⟩ | ⟨c, r, hc, ⟨hr, rfl⟩ | ⟨hr, rfl⟩⟩
  · exact of_stageAndRespond (.inl rfl) h
  · have hu : FgRan s.ckAcc s (s.setRing .out r) := use (fun _ => rfl) (.stage hr)
    exact hu.setPhase _ fun _ => (escapeCode_some hc).imp And.right And.right
  · exact (use (q := .out) (fun _ => rfl) (.stage hr)).respondFree false

theorem of_frameStore (v : Byte) (e : Bool) (s : State) : FgRan s.ckAcc s (frameStore v { s with fcEsc := e }) := by
  unfold frameStore
  split
  case isTrue hlt => exact ⟨rfl, fun _ => .inl rfl, .inr ⟨hlt, rfl, v, rfl⟩, id⟩
  case isFalse => exact ⟨rfl, fun _ => .inl rfl, .inl ⟨rfl, .inl rfl⟩, id⟩

theorem of_execFcDec {b : Byte} {s t : State} (h : execFcDec b s = .next t) : FgRan s.ckAcc s t := by
  rcases execFcDec_next h with ⟨-, rfl⟩ | ⟨-, -, rfl⟩ | ⟨-, -, rfl⟩ | ⟨-, -, -, rfl⟩
  · exact (of_frameStore _ false s).respond false _
  · exact ⟨rfl, fun _ => .inl rfl, .inl ⟨rfl, .inl rfl⟩, id⟩
  · exact ⟨rfl, fun _ => .inl rfl, .inl ⟨rfl, .inr rfl⟩, id⟩
  · exact (of_frameStore b s.fcEsc s).respond false _

end FgRan

/-- CK.acc after an operation (44 R190, R191). -/
def ckAfter (s : State) : Instr → Half
  | .ckRst => s.cfg.ckInit
  | .ckUpd b => ckUpdate s.ckAcc b
  | _ => s.ckAcc

theorem ckAfter_of_ne {s : State} {i : Instr} (hr : i ≠ .ckRst) (hu : ∀ b, i ≠ .ckUpd b) :
    ckAfter s i = s.ckAcc := by
  unfold ckAfter
  split
  · exact absurd rfl hr
  · exact absurd rfl (hu _)
  · rfl

/-- Everything an operation that is accepted can do. -/
theorem exec_ran {i : Instr} {s t : State} (h : exec i s = .next t) : FgRan (ckAfter s i) s t := by
  cases i with
  | rbWt q b =>
    obtain ⟨hq, h⟩ := guardPort_next h
    exact .of_stageAndRespond (portCheck_producer.mp hq) h
  | rbCm q =>
    obtain ⟨hq, h⟩ := guardPort_next h
    obtain rfl := Host.Outcome.next.inj h
    exact (FgRan.use (fun _ => hq) .commit).respondFree true
  | rbAb q =>
    obtain ⟨hq, h⟩ := guardPort_next h
    obtain rfl := Host.Outcome.next.inj h
    exact (FgRan.use (fun _ => hq) .abort).respondFree true
  | rbRd q =>
    obtain ⟨hq, h⟩ := guardPort_next h
    exact .of_popAndRespond (portCheck_consumer.mp hq) h
  | rbRdw q =>
    obtain ⟨hq, h⟩ := guardPort_next h
    exact .of_readWait (fun _ => portCheck_consumer.mp hq) h
  | rbPk q =>
    obtain ⟨-, h⟩ := guardPort_next h
    split at h
    · obtain rfl := Host.Outcome.next.inj h
      exact (FgRan.refl s).respondByte _
    · cases h
  | rbSz q | rbEm q | rbFl q =>
    obtain ⟨-, h⟩ := guardPort_next h
    obtain rfl := Host.Outcome.next.inj h
    exact (FgRan.refl s).respond true _
  | spSend b => exact .of_stageAndRespond (.inl rfl) h
  | spCommit =>
    obtain rfl := Host.Outcome.next.inj h
    have hu : FgRan s.ckAcc s (publish .out s) := .use (fun _ => rfl) .commit
    exact hu.setPhase .published fun _ => trivial
  | spAvail | spIdle | fcIdxq | fcEscq | ckGet =>
    obtain rfl := Host.Outcome.next.inj h
    exact (FgRan.refl s).respond true _
  | spGet => exact .of_popAndRespond (.inl rfl) h
  | fcEnc b => exact .of_execFcEnc h
  | fcEnd => exact .of_stageAndRespond (.inl rfl) h
  | fcDec b => exact .of_execFcDec h
  | fcRdb n =>
    obtain rfl := Host.Outcome.next.inj h
    exact (FgRan.refl s).respondByte _
  | ckRst | ckUpd b =>
    obtain rfl := Host.Outcome.next.inj h
    exact ⟨rfl, fun _ => .inl rfl, .inl ⟨rfl, .inl rfl⟩, id⟩

/-- FG's move is SP.COMMIT's second step, or one step of another operation, or nothing. -/
theorem runMove_fg_next {s t : State} (h : runMove .fg s = .next t) :
    (s.fgPhase = .published ∧ commitKick s = .next t) ∨ ∃ a, FgRan a s t := by
  rw [runMove_fg] at h
  cases hp : s.fgPhase with
  | published => exact .inl ⟨rfl, by simpa only [hp] using h⟩
  | encSecond c =>
    simp only [hp] at h
    exact .inr ⟨_, .of_encodeSecond h⟩
  | holding q =>
    simp only [hp] at h
    exact .inr ⟨_, .of_readWait (fun ok => by simpa only [State.PhaseOk, hp] using ok) h⟩
  | idle =>
    simp only [hp] at h
    split at h
    · unfold issueWord at h
      split at h
      · exact .inr ⟨_, (exec_ran h).of_port rfl fun _ => trivial⟩
      · cases h
    · obtain rfl := Host.Outcome.next.inj h
      exact .inr ⟨_, .refl s⟩

/-! ### What the other agents' moves leave unchanged -/

theorem commitKick_frame {s t : State} (h : commitKick s = .next t) :
    t = { s with out := t.out, idle := t.idle, txie := t.txie, txd := t.txd, txf := t.txf, im := false
                 fgPhase := .idle, resp := t.resp, draws := t.draws } := by
  rcases commitKick_next h with ⟨-, rfl⟩ | ⟨v, r, -, -, rfl⟩ <;> rfl

theorem isrTxe_frame {s t : State} (h : isrTxe s = .next t) :
    t = { s with out := t.out, idle := t.idle, txie := t.txie, txd := t.txd, txf := t.txf } := by
  rcases isrTxe_next h with ⟨-, rfl⟩ | ⟨-, -, rfl⟩ | ⟨v, r, -, -, rfl⟩ <;> rfl

theorem isrRxc_frame {s t : State} (h : isrRxc s = .next t) :
    t = { s with inp := t.inp, rxc := t.rxc } := by
  rcases isrRxc_next h with ⟨-, rfl⟩ | ⟨ok, r, -, -, rfl⟩ <;> rfl

theorem wireTake_frame (s : State) :
    wireTake s = { s with wireOut := (wireTake s).wireOut, txf := (wireTake s).txf } := by
  unfold wireTake
  split <;> rfl

theorem wireArrive_frame (b : Byte) (pick : OverrunPick) (s : State) :
    wireArrive b pick s = { s with
      wireIn := (wireArrive b pick s).wireIn, rxd := (wireArrive b pick s).rxd
      rxc := (wireArrive b pick s).rxc } := by
  have overrun : ∀ p, wireOverrun b p s = { s with
      wireIn := (wireOverrun b p s).wireIn, rxd := (wireOverrun b p s).rxd, rxc := (wireOverrun b p s).rxc } := by
    intro p
    cases p <;> rfl
  unfold wireArrive
  split
  · cases s.cfg.rxOverrun with
    | forbidden => rfl
    | dropNew => exact overrun .dropNew
    | dropOld => exact overrun .dropOld
    | either => exact overrun pick
  · rfl

/-- A move of the wire touches the data registers and the observation aids only. -/
theorem runMove_wire_frame {m : Move} {s t : State} (h : runMove m s = .next t) (hfg : m ≠ .fg)
    (htxe : m ≠ .txe) (hrxc : m ≠ .rxc) :
    t = { s with txf := t.txf, rxd := t.rxd, rxc := t.rxc, wireOut := t.wireOut, wireIn := t.wireIn } := by
  cases m with
  | fg => exact absurd rfl hfg
  | txe => exact absurd rfl htxe
  | rxc => exact absurd rfl hrxc
  | take =>
    obtain rfl := Host.Outcome.next.inj h
    rw [wireTake_frame]
  | arrive b pick =>
    obtain rfl := Host.Outcome.next.inj h
    rw [wireArrive_frame]

/-- The move of an agent but FG leaves AUX, the codec, CK.acc and the command port. -/
theorem runMove_other_frame {m : Move} {s t : State} (hfg : m ≠ .fg) (h : runMove m s = .next t) :
    t = { s with
      out := t.out, inp := t.inp, idle := t.idle, txie := t.txie, txd := t.txd, txf := t.txf, rxd := t.rxd
      rxc := t.rxc, wireOut := t.wireOut, wireIn := t.wireIn } := by
  cases m with
  | fg => exact absurd rfl hfg
  | txe => rw [isrTxe_frame h]
  | rxc => rw [isrRxc_frame h]
  | take | arrive b pick => rw [runMove_wire_frame h nofun nofun nofun]

/-! ### Every step keeps the invariants -/

theorem cap_le {s : State} (hs : s.cfg.Valid) (q : RingId) : s.cap q ≤ 255 := by
  obtain ⟨⟨-, hout⟩, ⟨-, hinp⟩, ⟨-, haux⟩, -⟩ := hs
  cases q with
  | out => exact hout
  | inp => exact hinp
  | aux => exact haux

theorem ring_inv {s : State} (hs : s.Inv) (q : RingId) : (s.ring q).Inv (s.cap q) := by
  cases q with
  | out => exact hs.out
  | inp => exact hs.inp
  | aux => exact hs.aux

theorem ring_backed {s : State} (hb : s.Backed) (q : RingId) : (s.ring q).Backed (s.cap q) := by
  obtain ⟨hout, hinp, haux⟩ := hb
  cases q with
  | out => exact hout
  | inp => exact hinp
  | aux => exact haux

/-- The fields that the invariants do not speak of. -/
theorem inv_of_unconstrained {s t : State} (hs : s.Inv)
    (h : t = { s with
      txd := t.txd, rxd := t.rxd, rxc := t.rxc, fcEsc := t.fcEsc, ckAcc := t.ckAcc, wireOut := t.wireOut
      wireIn := t.wireIn, cmds := t.cmds, resp := t.resp, schedule := t.schedule, draws := t.draws }) : t.Inv := by
  rw [h]
  exact { hs with phase := hs.phase }

namespace FgRan
variable {a : Half} {s t : State} (h : FgRan a s t)
include h

/-- Under `PhaseOk` a buffer is as it was, or FG has used it on a side it has there. -/
theorem ring_used (hp : s.PhaseOk) (q : RingId) : t.ring q = s.ring q
    ∨ ∃ side, portCheck side q s = none ∧ (s.ring q).Used (.ring q) (s.cap q) side (t.ring q) :=
  (h.ring q).imp id fun ⟨side, hc, hu⟩ => ⟨side, hc hp, hu⟩

theorem keeps_ring_inv (hs : s.Inv) (q : RingId) : (t.ring q).Inv (s.cap q) := by
  rcases h.ring q with e | ⟨side, -, hu⟩
  · exact e ▸ ring_inv hs q
  · exact hu.keeps_inv (cap_le hs.cfg q) (ring_inv hs q)

theorem keeps_ring_backed (hs : s.Inv) (hb : s.Backed) (q : RingId) : (t.ring q).Backed (s.cap q) := by
  rcases h.ring q with e | ⟨side, -, hu⟩
  · exact e ▸ ring_backed hb q
  · exact hu.keeps_backed (cap_le hs.cfg q) (ring_inv hs q) (ring_backed hb q)

/-- FG does not produce into IN (30 R97). -/
theorem inp_frame (hp : s.PhaseOk) :
    t.inp.write = s.inp.write ∧ t.inp.tentative = s.inp.tentative ∧ t.inp.buf = s.inp.buf := by
  rcases h.ring_used hp .inp with e | ⟨side, hc, hu⟩
  · rw [show t.inp = s.inp from e]
    exact ⟨rfl, rfl, rfl⟩
  · cases side with
    | producer => cases hc
    | consumer => exact hu.consumer_frame
    | status => cases hu

/-- FG does not consume from OUT (30 R97). -/
theorem out_read (hp : s.PhaseOk) : t.out.read = s.out.read := by
  rcases h.ring_used hp .out with e | ⟨side, hc, hu⟩
  · exact congrArg RingBuf.read e
  · cases side with
    | producer => exact hu.producer_read
    | consumer => cases hc
    | status => cases hu

theorem keeps_codec (hs : s.Inv) :
    t.fcIdx.toNat ≤ s.cfg.frameCap ∧ Memory.Wf t.fcBuf ∧ Memory.Below s.cfg.frameCap t.fcBuf := by
  rcases h.codec with ⟨hbuf, hidx⟩ | ⟨hlt, hidx, v, hbuf⟩ <;> rw [hbuf]
  · refine ⟨?_, hs.fcWf, hs.fcBelow⟩
    rcases hidx with hidx | hidx <;> rw [hidx]
    · exact hs.fcIdx
    · exact Nat.zero_le _
  · refine ⟨?_, store_wf _ _ hs.fcWf, store_below _ hlt hs.fcBelow⟩
    rw [hidx, BitVec.toNat_add]
    exact (Nat.mod_le _ _).trans hlt

theorem keeps_inv (hs : s.Inv) : t.Inv := by
  obtain ⟨hidx, hwf, hbelow⟩ := h.keeps_codec hs
  obtain ⟨hw, ht, -⟩ := h.inp_frame hs.phase
  have hp := h.phase hs.phase
  rw [h.frame] at hp ⊢
  exact
    { cfg := hs.cfg, out := h.keeps_ring_inv hs .out, inp := h.keeps_ring_inv hs .inp
      aux := h.keeps_ring_inv hs .aux, inpSettled := ht.trans (hs.inpSettled.trans hw.symm)
      chain := hs.chain, quiet := hs.quiet, unmasked := hs.unmasked
      fcIdx := hidx, fcWf := hwf, fcBelow := hbelow, phase := hp }

theorem keeps_backed (hs : s.Inv) (hb : s.Backed) : t.Backed := by
  have ring := h.keeps_ring_backed hs hb
  rw [h.frame]
  exact ⟨ring .out, ring .inp, ring .aux⟩

end FgRan

theorem commitKick_keeps_inv {s t : State} (hs : s.Inv) (h : commitKick s = .next t) : t.Inv := by
  rcases commitKick_next h with ⟨-, rfl⟩ | ⟨v, r, -, hr, rfl⟩
  · exact { hs with unmasked := rfl, phase := trivial }
  · exact { hs with
      out := pop_keeps_inv (cap_le hs.cfg .out) hs.out hr
      chain := rfl, quiet := nofun, unmasked := rfl, phase := trivial }

theorem txeEnabled_iff (s : State) : s.txeEnabled = true ↔ s.txie = true ∧ s.txf = false ∧ s.im = false := by
  simp [State.txeEnabled, and_assoc]

theorem isrTxe_keeps_inv {s t : State} (hs : s.Inv) (h : isrTxe s = .next t) : t.Inv := by
  rcases isrTxe_next h with ⟨-, rfl⟩ | ⟨hen, -, rfl⟩ | ⟨v, r, hen, hr, rfl⟩
  · exact hs
  · obtain ⟨-, htxf, -⟩ := (txeEnabled_iff s).mp hen
    exact { hs with chain := rfl, quiet := fun _ => htxf, phase := hs.phase }
  · obtain ⟨htxie, -, -⟩ := (txeEnabled_iff s).mp hen
    have hidle : s.idle = false := by rw [hs.chain, htxie]; rfl
    exact { hs with
      out := pop_keeps_inv (cap_le hs.cfg .out) hs.out hr
      quiet := fun e => absurd (hidle.symm.trans e) Bool.false_ne_true, phase := hs.phase }

theorem isrRxc_keeps_inv {s t : State} (hs : s.Inv) (h : isrRxc s = .next t) : t.Inv := by
  rcases isrRxc_next h with ⟨-, rfl⟩ | ⟨ok, r, -, hr, rfl⟩
  · exact hs
  · exact { hs with
      inp := commit_keeps_inv (writeTentative_keeps_inv (cap_le hs.cfg .inp) hs.inp hr)
      inpSettled := rfl, phase := hs.phase }

theorem wireTake_keeps_inv {s : State} (hs : s.Inv) : (wireTake s).Inv := by
  unfold wireTake
  split
  · exact { hs with quiet := fun _ => rfl, phase := hs.phase }
  · exact hs

theorem runMove_keeps_inv {m : Move} {s t : State} (hs : s.Inv) (h : runMove m s = .next t) : t.Inv := by
  cases m with
  | fg =>
    rcases runMove_fg_next h with ⟨-, h⟩ | ⟨a, h⟩
    · exact commitKick_keeps_inv hs h
    · exact h.keeps_inv hs
  | txe => exact isrTxe_keeps_inv hs h
  | rxc => exact isrRxc_keeps_inv hs h
  | take => exact Host.Outcome.next.inj h ▸ wireTake_keeps_inv hs
  | arrive b pick =>
    obtain rfl := Host.Outcome.next.inj h
    rw [wireArrive_frame]
    exact inv_of_unconstrained hs rfl

theorem runMove_keeps_backed {m : Move} {s t : State} (hs : s.Inv) (hb : s.Backed) (h : runMove m s = .next t) :
    t.Backed := by
  obtain ⟨hout, hinp, haux⟩ := id hb
  have pop_out : ∀ {v r}, s.out.pop (.ring .out) s.cfg.nOut = .ok (v, r) → r.Backed s.cfg.nOut :=
    fun hr => (RingBuf.Used.pop hr).keeps_backed (cap_le hs.cfg .out) hs.out hout
  cases m with
  | fg =>
    rcases runMove_fg_next h with ⟨-, h⟩ | ⟨a, h⟩
    · rcases commitKick_next h with ⟨-, rfl⟩ | ⟨v, r, -, hr, rfl⟩
      · exact hb
      · exact ⟨pop_out hr, hinp, haux⟩
    · exact h.keeps_backed hs hb
  | txe =>
    rcases isrTxe_next h with ⟨-, rfl⟩ | ⟨-, -, rfl⟩ | ⟨v, r, -, hr, rfl⟩
    · exact hb
    · exact hb
    · exact ⟨pop_out hr, hinp, haux⟩
  | rxc =>
    rcases isrRxc_next h with ⟨-, rfl⟩ | ⟨ok, r, -, hr, rfl⟩
    · exact hb
    · have hn := cap_le hs.cfg .inp
      have hstaged : s.inp.Used (.ring .inp) s.cfg.nIn .producer r := .stage hr
      have hcommit : r.Used (.ring .inp) s.cfg.nIn .producer r.commit := .commit
      have hr : r.Inv s.cfg.nIn ∧ r.Backed s.cfg.nIn :=
        ⟨hstaged.keeps_inv hn hs.inp, hstaged.keeps_backed hn hs.inp hinp⟩
      exact ⟨hout, hcommit.keeps_backed hn hr.1 hr.2, haux⟩
  | take | arrive b pick =>
    rw [runMove_wire_frame h nofun nofun nofun]
    exact hb

/-- Settles O48: a step is one move of one agent, and each agent's move keeps the invariants. -/
theorem stepKeepsInvariants : Obligations.StepKeepsInvariants := by
  intro s t hs h
  obtain ⟨m, ms, d, e⟩ := step_is_a_move s
  have hs' : State.Inv { s with schedule := ms, draws := d } := inv_of_unconstrained hs rfl
  exact runMove_keeps_inv hs' (e ▸ h)

/-- Settles O49: every use of a buffer keeps its unread bytes written, and a move touches a buffer by such uses only. -/
theorem stepKeepsUnreadBytesWritten : Obligations.StepKeepsUnreadBytesWritten := by
  intro s t hs hb h
  obtain ⟨m, ms, d, e⟩ := step_is_a_move s
  have hs' : State.Inv { s with schedule := ms, draws := d } := inv_of_unconstrained hs rfl
  exact runMove_keeps_backed hs' hb (e ▸ h)

/-- Settles O47: a buffer created at reset has its indices at 0 and no unread byte. -/
theorem invariantsHoldAtReset : Obligations.InvariantsHoldAtReset := by
  intro c hc
  obtain ⟨⟨hout, -⟩, ⟨hinp, -⟩, ⟨haux, -⟩, -⟩ := id hc
  have backed : ∀ n, RingBuf.reset.Backed n := fun n k hk => absurd hk (Nat.not_lt_zero k)
  refine ⟨?_, backed _, backed _, backed _⟩
  exact
    { cfg := hc, out := inv_reset hout, inp := inv_reset hinp, aux := inv_reset haux, inpSettled := rfl, chain := rfl
      quiet := fun _ => rfl, unmasked := rfl, fcIdx := Nat.zero_le _, fcWf := .nil, fcBelow := nofun, phase := trivial }

/-! ### Who writes what -/

theorem isrTxe_out_frame {s t : State} (h : isrTxe s = .next t) :
    t.out.write = s.out.write ∧ t.out.tentative = s.out.tentative := by
  rcases isrTxe_next h with ⟨-, rfl⟩ | ⟨-, -, rfl⟩ | ⟨v, r, -, hr, rfl⟩
  · exact ⟨rfl, rfl⟩
  · exact ⟨rfl, rfl⟩
  · obtain ⟨hw, ht, -⟩ := pop_frame hr
    exact ⟨hw, ht⟩

theorem isrRxc_inp_read {s t : State} (h : isrRxc s = .next t) : t.inp.read = s.inp.read := by
  rcases isrRxc_next h with ⟨-, rfl⟩ | ⟨ok, r, -, hr, rfl⟩
  · rfl
  · exact (writeTentative_frame hr).1

/-- FG is OUT's only producer (10_state R25). -/
theorem runMove_out_producer {m : Move} {s t : State} (hfg : m ≠ .fg) (h : runMove m s = .next t) :
    t.out.write = s.out.write ∧ t.out.tentative = s.out.tentative := by
  cases m with
  | fg => exact absurd rfl hfg
  | txe => exact isrTxe_out_frame h
  | rxc => rw [isrRxc_frame h]; exact ⟨rfl, rfl⟩
  | take | arrive b pick => rw [runMove_wire_frame h nofun nofun nofun]; exact ⟨rfl, rfl⟩

/-- RXI is IN's only producer (10_state R25). -/
theorem runMove_inp_producer {m : Move} {s t : State} (hp : s.PhaseOk) (hrxc : m ≠ .rxc)
    (h : runMove m s = .next t) :
    t.inp.write = s.inp.write ∧ t.inp.tentative = s.inp.tentative ∧ t.inp.buf = s.inp.buf := by
  cases m with
  | fg =>
    rcases runMove_fg_next h with ⟨-, h⟩ | ⟨a, h⟩
    · rw [commitKick_frame h]; exact ⟨rfl, rfl, rfl⟩
    · exact h.inp_frame hp
  | txe => rw [isrTxe_frame h]; exact ⟨rfl, rfl, rfl⟩
  | rxc => exact absurd rfl hrxc
  | take | arrive b pick => rw [runMove_wire_frame h nofun nofun nofun]; exact ⟨rfl, rfl, rfl⟩

/-- FG is IN's only consumer (10_state R25). -/
theorem runMove_inp_consumer {m : Move} {s t : State} (hfg : m ≠ .fg) (h : runMove m s = .next t) :
    t.inp.read = s.inp.read := by
  cases m with
  | fg => exact absurd rfl hfg
  | txe => rw [isrTxe_frame h]
  | rxc => exact isrRxc_inp_read h
  | take | arrive b pick => rw [runMove_wire_frame h nofun nofun nofun]

/-- OUT's consumers are TXI and SP.COMMIT's second step (10_state R25). -/
theorem runMove_out_consumer {m : Move} {s t : State} (hp : s.PhaseOk) (htxe : m ≠ .txe)
    (hkick : ¬(m = .fg ∧ s.fgPhase = .published)) (h : runMove m s = .next t) : t.out.read = s.out.read := by
  cases m with
  | fg =>
    rcases runMove_fg_next h with ⟨hph, -⟩ | ⟨a, h⟩
    · exact absurd ⟨rfl, hph⟩ hkick
    · exact h.out_read hp
  | txe => exact absurd rfl htxe
  | rxc => rw [isrRxc_frame h]
  | take | arrive b pick => rw [runMove_wire_frame h nofun nofun nofun]

theorem runMove_owners {m : Move} {s t : State} (hp : s.PhaseOk) (h : runMove m s = .next t) :
    (m ≠ .fg → t.out.write = s.out.write ∧ t.out.tentative = s.out.tentative ∧ t.aux = s.aux)
    ∧ (m ≠ .rxc → t.inp.write = s.inp.write ∧ t.inp.tentative = s.inp.tentative ∧ t.inp.buf = s.inp.buf)
    ∧ (m ≠ .fg → t.inp.read = s.inp.read)
    ∧ (m ≠ .txe → ¬(m = .fg ∧ s.fgPhase = .published) → t.out.read = s.out.read) := by
  refine ⟨fun hfg => ?_, fun hrxc => runMove_inp_producer hp hrxc h, fun hfg => runMove_inp_consumer hfg h,
    fun htxe hkick => runMove_out_consumer hp htxe hkick h⟩
  obtain ⟨hw, ht⟩ := runMove_out_producer hfg h
  exact ⟨hw, ht, by rw [runMove_other_frame hfg h]⟩

/-- Settles O52: by the agent of the move, one clause for each producer and each consumer. -/
theorem ownersOfTheIndices : Obligations.OwnersOfTheIndices := by
  intro s t m ms hp hs h
  rw [step_scheduled hs] at h
  exact runMove_owners (s := { s with schedule := ms }) hp h

/-- A move leaves `idle` and `TXIE`, or it is SP.COMMIT's second step, which starts the chain, or ISR.TXE on an empty
OUT, which stops it. -/
theorem runMove_chain {m : Move} {s t : State} (h : runMove m s = .next t) :
    (t.idle = s.idle ∧ t.txie = s.txie)
      ∨ (m = .fg ∧ s.fgPhase = .published ∧ t.idle = false ∧ t.txie = true)
      ∨ (m = .txe ∧ s.out.Empty ∧ t.idle = true ∧ t.txie = false) := by
  cases m with
  | fg =>
    rcases runMove_fg_next h with ⟨hp, h⟩ | ⟨a, h⟩
    · rcases commitKick_next h with ⟨-, rfl⟩ | ⟨v, r, -, -, rfl⟩
      · exact .inl ⟨rfl, rfl⟩
      · exact .inr (.inl ⟨rfl, hp, rfl, rfl⟩)
    · rw [h.frame]
      exact .inl ⟨rfl, rfl⟩
  | txe =>
    rcases isrTxe_next h with ⟨-, rfl⟩ | ⟨-, he, rfl⟩ | ⟨v, r, -, -, rfl⟩
    · exact .inl ⟨rfl, rfl⟩
    · exact .inr (.inr ⟨rfl, he, rfl, rfl⟩)
    · exact .inl ⟨rfl, rfl⟩
  | rxc => rw [isrRxc_frame h]; exact .inl ⟨rfl, rfl⟩
  | take | arrive b pick => rw [runMove_wire_frame h nofun nofun nofun]; exact .inl ⟨rfl, rfl⟩

/-- Settles O53: by the three things a move can do to the chain. -/
theorem onlyKickAndHandlerMoveIdle : Obligations.OnlyKickAndHandlerMoveIdle := by
  intro s t m ms hs h
  rw [step_scheduled hs] at h
  rcases runMove_chain h with ⟨hi, hx⟩ | ⟨hm, hp, hi, hx⟩ | ⟨hm, he, hi, hx⟩
  · simp [hi, hx]
  · simpa [hi, hx] using fun _ => ⟨hm, hp⟩
  · simpa [hi, hx] using fun _ => ⟨hm, he⟩

/-- Settles O54: the frame of the other agents' moves, and CK.acc after each operation. -/
theorem codecAndChecksumBelongToFg : Obligations.CodecAndChecksumBelongToFg := by
  refine ⟨fun s t m ms hs hfg h => ?_, fun s t i h hr hu => ?_⟩
  · rw [step_scheduled hs] at h
    rw [runMove_other_frame hfg h]
    exact ⟨rfl, rfl, rfl, rfl, rfl, rfl, rfl⟩
  · rw [(exec_ran h).frame]
    exact ckAfter_of_ne hr hu

/-! ### N bytes staged one after another -/

/-- The unread bytes, oldest first: the committed ones, then the staged ones. -/
def RingBuf.unread (sp : Space) (n : Nat) (q : RingBuf) : List Byte :=
  (List.range (q.total n)).map fun k => Memory.byteAt sp q.buf ((q.read.toNat + k) % n)

theorem length_unread (sp : Space) (n : Nat) (q : RingBuf) : (q.unread sp n).length = q.total n := by
  simp [RingBuf.unread]

theorem contents_eq_unread {n : Nat} {q : RingBuf} (sp : Space) (h : q.tentative = q.write) :
    q.contents sp n = q.unread sp n := by
  simp [RingBuf.contents, RingBuf.unread, RingBuf.total, RingBuf.staged, h]

/-- With room, none of the unread bytes lies at `tentative`. -/
theorem unread_index_ne_tentative {n : Nat} {q : RingBuf} (hq : q.Inv n) (hf : q.full = false) {k : Nat}
    (hk : k < q.total n) : (q.read.toNat + k) % n ≠ q.tentative.toNat := by
  rw [tentative_eq_mod hq]
  have hlt : q.total n < n := by
    obtain ⟨-, hle, -⟩ := id hq
    exact Nat.lt_of_le_of_ne hle fun e => by simpa [hf] using (full_iff_total hq).mpr e
  intro e
  have := Nat.ModEq.add_left_cancel' _ (show q.read.toNat + k ≡ q.read.toNat + q.total n [MOD n] from e)
  rw [Nat.ModEq, Nat.mod_eq_of_lt (hk.trans hlt), Nat.mod_eq_of_lt hlt] at this
  exact hk.ne this

theorem unread_staging {n : Nat} {q : RingBuf} (sp : Space) (b : Byte) (hn : n ≤ 255) (hq : q.Inv n)
    (hf : q.full = false) : (q.staging n b).unread sp n = q.unread sp n ++ [b] := by
  rw [RingBuf.unread, total_staging b hn hq hf, List.range_succ, List.map_append]
  congr 1
  · refine List.map_congr_left fun k hk => ?_
    exact byteAt_store_of_ne sp _ b (unread_index_ne_tentative hq hf (List.mem_range.mp hk))
  · rw [List.map_singleton, RingBuf.staging, ← tentative_eq_mod hq, byteAt_store_self]

/-- RB.WT with room. -/
theorem exec_rbWt_room {s : State} {q : RingId} (b : Byte) (hs : (s.ring q).Inv (s.cap q)) (hq : s.FgProduces q)
    (hf : (s.ring q).full = false) :
    exec (.rbWt q b) s = .next (respondFree true (s.setRing q ((s.ring q).staging (s.cap q) b))) := by
  have ht := hs.1.2.2
  change guardPort .producer q s (stageAndRespond q b s) = _
  rw [guardPort_ok _ (portCheck_producer.mpr hq), stageAndRespond, stage_room b hf ht]

/-- Bytes that fit are staged one after another, behind the unread ones. -/
theorem execAll_rbWt {q : RingId} (bs : List Byte) {s : State} (hs : (s.ring q).Inv (s.cap q)) (hn : s.cap q ≤ 255)
    (hq : s.FgProduces q) (hfit : (s.ring q).total (s.cap q) + bs.length ≤ s.cap q) :
    ∃ t, execAll (bs.map (.rbWt q)) s = .next t ∧ t.cfg = s.cfg ∧ (t.ring q).Inv (s.cap q)
      ∧ (t.ring q).read = (s.ring q).read ∧ (t.ring q).write = (s.ring q).write
      ∧ (t.ring q).unread (.ring q) (s.cap q) = (s.ring q).unread (.ring q) (s.cap q) ++ bs := by
  induction bs generalizing s with
  | nil => exact ⟨s, rfl, rfl, hs, rfl, rfl, by simp⟩
  | cons b bs ih =>
    rw [List.length_cons] at hfit
    have hf : (s.ring q).full = false := by
      rw [← Bool.not_eq_true, full_iff_total hs]
      omega
    have hstaged : ((s.ring q).staging (s.cap q) b).Inv (s.cap q) :=
      writeTentative_keeps_inv (sp := .ring q) hn hs (writeTentative_room b hf hs.1.2.2)
    obtain ⟨t, hrun, hcfg, hinv, hread, hwrite, hunread⟩ :=
      ih (s := respondFree true (s.setRing q ((s.ring q).staging (s.cap q) b))) (by simpa using hstaged) hn hq
        (by simp [total_staging b hn hs hf]; omega)
    simp only [cap_respondFree, cap_setRing, ring_respondFree, ring_setRing_self] at hinv hread hwrite hunread
    refine ⟨t, ?_, hcfg, hinv, hread, hwrite, ?_⟩
    · simpa [execAll, exec_rbWt_room b hs hq hf] using hrun
    · rw [hunread, unread_staging _ b hn hs hf, List.append_assoc, List.singleton_append]

/-- Settles O22: after N bytes the buffer is full, so `tentative` is back at `read`, where `write` still stands. -/
theorem fullTransactionIsVisibleUncommitted : Obligations.FullTransactionIsVisibleUncommitted := by
  intro s q bs hs hq htw he hlen
  have hn := cap_le hs.cfg q
  have hinv := ring_inv hs q
  have hempty : (s.ring q).total (s.cap q) = 0 := by
    rw [RingBuf.total, (committed_eq_zero_iff hinv.1).mpr he, RingBuf.staged, if_pos htw]
  obtain ⟨t, hrun, hcfg, ht, hread, hwrite, hunread⟩ := execAll_rbWt bs hinv hn hq (by omega)
  have hunread : (t.ring q).unread (.ring q) (s.cap q) = bs := by
    rw [hunread, List.eq_nil_of_length_eq_zero ((length_unread _ _ _).trans hempty), List.nil_append]
  have hf : (t.ring q).full = true :=
    (full_iff_total ht).mpr (by rw [← length_unread (.ring q), hunread, hlen])
  have hback : (t.ring q).tentative = (t.ring q).write := by
    obtain ⟨-, -, -, hmeet, -⟩ := ht
    rw [hmeet hf, hread, hwrite]
    exact he.1
  refine ⟨t, respondFree true (t.setRing q (t.ring q).abort), hrun, ?_, ?_, ?_, ?_⟩
  · have hqt : t.FgProduces q := by simpa only [State.FgProduces, hcfg] using hq
    exact guardPort_ok _ (portCheck_producer.mpr hqt)
  · simp [RingBuf.abort, hback]
  · simp [RingBuf.size, hf]
  · rw [contents_eq_unread _ hback, hunread]

end Sys2Proof.Machine

namespace Sys2Proof.Machine

/-! ### Accesses in range (20 R62)

With a buffer's indices in range no element access of the shared operations faults, so each of them answers. -/

section
variable {q : RingId} {s : State} (h : (s.ring q).InRange (s.cap q))
include h

theorem stage_answers (b : Byte) : ∃ ok t, stage q b s = .ok (ok, t) := by
  obtain ⟨-, -, htentative⟩ := h
  cases hf : (s.ring q).full
  · exact ⟨_, _, stage_room b hf htentative⟩
  · exact ⟨_, _, stage_full b hf⟩

theorem pop_answers : ∃ v t, pop q s = .ok (v, t) := by
  obtain ⟨hread, -, -⟩ := h
  by_cases he : (s.ring q).Empty
  · exact ⟨_, _, pop_of_empty he⟩
  · exact ⟨_, _, pop_of_byte he hread⟩

theorem peek_answers : ∃ v, (s.ring q).peek (.ring q) (s.cap q) = .ok v := by
  obtain ⟨hread, -, -⟩ := h
  by_cases he : (s.ring q).Empty
  · exact ⟨_, peek_empty he⟩
  · exact ⟨_, peek_byte he hread⟩

theorem stageAndRespond_runs (b : Byte) : ∃ t, stageAndRespond q b s = .next t := by
  obtain ⟨ok, t, e⟩ := stage_answers h b
  exact ⟨_, by rw [stageAndRespond, e]⟩

theorem popAndRespond_runs : ∃ t, popAndRespond q s = .next t := by
  obtain ⟨v, t, e⟩ := pop_answers h
  exact ⟨_, by rw [popAndRespond, e]⟩

theorem readWait_runs : ∃ t, readWait q s = .next t := by
  unfold readWait
  split
  · exact ⟨_, rfl⟩
  · exact popAndRespond_runs (by rwa [ring_endOp, cap_endOp])

end

/-! ### The operations on OUT and IN -/

theorem execFcEnc_runs {s : State} (h : s.out.InRange s.cfg.nOut) (b : Byte) : ∃ t, execFcEnc b s = .next t := by
  unfold execFcEnc
  split
  case h_1 => exact stageAndRespond_runs (q := .out) h b
  case h_2 c _ =>
    obtain ⟨ok, t, e⟩ := stage_answers (q := .out) h bESC
    rw [e]
    cases ok <;> exact ⟨_, rfl⟩

/-- Each of FC.DEC's branches answers. -/
theorem execFcDec_runs (b : Byte) (s : State) : ∃ t, execFcDec b s = .next t := by
  unfold execFcDec
  split_ifs <;> exact ⟨_, rfl⟩

theorem startChain_answers {s : State} (h : s.out.InRange s.cfg.nOut) : ∃ t, startChain s = .ok t := by
  unfold startChain
  split
  · obtain ⟨v, t, e⟩ := pop_answers (q := .out) (s := { s with idle := false, txie := true }) h
    rw [e]
    cases v <;> exact ⟨_, rfl⟩
  · exact ⟨_, rfl⟩

theorem commitKick_runs {s : State} (h : s.out.InRange s.cfg.nOut) : ∃ t, commitKick s = .next t := by
  obtain ⟨t, e⟩ := startChain_answers (s := { s with im := true }) h
  exact ⟨_, by rw [commitKick, e]⟩

theorem isrTxe_runs {s : State} (h : s.out.InRange s.cfg.nOut) : ∃ t, isrTxe s = .next t := by
  unfold isrTxe
  split
  · obtain ⟨v, t, e⟩ := pop_answers (q := .out) h
    rw [txeBody, e]
    cases v <;> exact ⟨_, rfl⟩
  · exact ⟨_, rfl⟩

theorem isrRxc_runs {s : State} (h : s.inp.InRange s.cfg.nIn) : ∃ t, isrRxc s = .next t := by
  unfold isrRxc
  split
  · obtain ⟨ok, t, e⟩ := stage_answers (q := .inp) (s := { s with rxc := false }) h s.rxd
    exact ⟨_, by rw [rxcBody, e, settle]⟩
  · exact ⟨_, rfl⟩

/-! ### An operation runs on its side and is refused off it (30 R97) -/

theorem guardPort_runs {side : Side} {q : RingId} {s : State} {o : Result}
    (hq : sideAllows s.cfg.hasAux side q = true) (ho : ∃ t, o = .next t) : ∃ t, guardPort side q s o = .next t := by
  rwa [guardPort_ok o ((portCheck_eq_none_iff side q s).mpr hq)]

theorem guardPort_refuses {side : Side} {q : RingId} {s : State} (o : Result)
    (hq : sideAllows s.cfg.hasAux side q = false) : ∃ r, guardPort side q s o = .refused r := by
  unfold guardPort
  split
  case h_1 r _ => exact ⟨r, rfl⟩
  case h_2 e => exact absurd ((portCheck_eq_none_iff side q s).mp e) (by simp [hq])

/-- A unit RB operation is run behind the side restriction on the buffer it names. -/
theorem exec_eq_guardPort {i : Instr} {side : Side} {q : RingId} (h : i.ringUse = some (side, q)) (s : State) :
    ∃ o, exec i s = guardPort side q s o := by
  cases i with
  | rbWt | rbCm | rbAb | rbRd | rbRdw | rbPk | rbSz | rbEm | rbFl =>
    cases h
    exact ⟨_, rfl⟩
  | _ => cases h

theorem exec_refuses {i : Instr} {s : State} (hi : i.wellFormed s.cfg.hasAux = false) :
    ∃ r, exec i s = .refused r := by
  unfold Instr.wellFormed at hi
  split at hi
  case h_1 side q hu =>
    obtain ⟨o, e⟩ := exec_eq_guardPort hu s
    exact e ▸ guardPort_refuses o hi
  case h_2 => cases hi

theorem exec_runs {i : Instr} {s : State} (h : ∀ q, (s.ring q).InRange (s.cap q))
    (hi : i.wellFormed s.cfg.hasAux = true) : ∃ t, exec i s = .next t := by
  cases i with
  | rbWt q b => exact guardPort_runs hi (stageAndRespond_runs (h q) b)
  | rbRd q => exact guardPort_runs hi (popAndRespond_runs (h q))
  | rbRdw q => exact guardPort_runs hi (readWait_runs (h q))
  | rbPk q =>
    obtain ⟨v, e⟩ := peek_answers (h q)
    exact guardPort_runs hi ⟨_, by rw [e]⟩
  | rbCm | rbAb | rbSz | rbEm | rbFl => exact guardPort_runs hi ⟨_, rfl⟩
  | spSend b => exact stageAndRespond_runs (h .out) b
  | spGet => exact popAndRespond_runs (h .inp)
  | fcEnc b => exact execFcEnc_runs (h .out) b
  | fcEnd => exact stageAndRespond_runs (h .out) bEND
  | fcDec b => exact execFcDec_runs b s
  | spCommit | spAvail | spIdle | fcIdxq | fcEscq | fcRdb | ckRst | ckUpd | ckGet => exact ⟨_, rfl⟩

/-! ### No step faults -/

theorem ring_inRange {s : State} (hs : s.Inv) (q : RingId) : (s.ring q).InRange (s.cap q) := (ring_inv hs q).1

theorem ne_fault_of_next {o : Result} (h : ∃ t, o = .next t) (f : Fault) : o ≠ .fault f := by
  obtain ⟨t, rfl⟩ := h
  exact nofun

theorem issueWord_ne_fault {s : State} (hs : s.Inv) (w : Word) (f : Fault) : issueWord w s ≠ .fault f := by
  unfold issueWord
  split
  case h_1 i _ =>
    cases hi : i.wellFormed s.cfg.hasAux
    · obtain ⟨r, e⟩ := exec_refuses hi
      simp [e]
    · exact ne_fault_of_next (exec_runs (ring_inRange hs) hi) f
  case h_2 => exact nofun

theorem runMove_fg_ne_fault {s : State} (hs : s.Inv) (f : Fault) : runMove .fg s ≠ .fault f := by
  have hr := ring_inRange hs
  rw [runMove_fg]
  split
  case h_1 => exact ne_fault_of_next (commitKick_runs (hr .out)) f
  case h_2 c _ => exact ne_fault_of_next (stageAndRespond_runs (q := .out) (s := endOp s) (hr .out) c) f
  case h_3 q _ => exact ne_fault_of_next (readWait_runs (hr q)) f
  case h_4 =>
    split
    · exact issueWord_ne_fault (inv_of_unconstrained hs rfl) _ f
    · exact nofun

theorem runMove_ne_fault {m : Move} {s : State} (hs : s.Inv) (f : Fault) : runMove m s ≠ .fault f := by
  cases m with
  | fg => exact runMove_fg_ne_fault hs f
  | txe => exact ne_fault_of_next (isrTxe_runs (ring_inRange hs .out)) f
  | rxc => exact ne_fault_of_next (isrRxc_runs (ring_inRange hs .inp)) f
  | take | arrive => exact nofun

/-- Settles O50: a step is one move of one agent, and under the invariants every access of a move is in range. -/
theorem stepNeverFaults : Obligations.StepNeverFaults := by
  intro s f hs
  obtain ⟨m, ms, d, e⟩ := step_is_a_move s
  have hs' : State.Inv { s with schedule := ms, draws := d } := inv_of_unconstrained hs rfl
  exact e ▸ runMove_ne_fault hs' f

/-! ### The read-only operations (20 R64) -/

theorem respondByte_cases (v : Option Byte) (s : State) :
    (∃ d, respondByte v s = respond true d s) ∨ respondByte v s = respondFree false s := by
  cases v with
  | none => exact .inr rfl
  | some b => exact .inl ⟨_, rfl⟩

/-- A read-only operation answers with data, or with `ok = 0` where there is no byte to look at. -/
theorem exec_readOnly_next {i : Instr} {s t : State} (hr : readOnly i = true) (h : exec i s = .next t) :
    (∃ d, t = respond true d s) ∨ t = respondFree false s := by
  cases i with
  | rbPk q =>
    obtain ⟨-, h⟩ := guardPort_next h
    split at h
    · obtain rfl := Host.Outcome.next.inj h
      exact respondByte_cases _ s
    · cases h
  | rbSz | rbEm | rbFl =>
    obtain ⟨-, h⟩ := guardPort_next h
    exact .inl ⟨_, (Host.Outcome.next.inj h).symm⟩
  | spAvail | spIdle | fcIdxq | fcEscq | ckGet => exact .inl ⟨_, (Host.Outcome.next.inj h).symm⟩
  | fcRdb n =>
    obtain rfl := Host.Outcome.next.inj h
    exact respondByte_cases _ s
  | _ => cases hr

/-- Settles O55: a response writes the response word and the count of free values only. -/
theorem readOnlyOperationsHaveNoSideEffect : Obligations.ReadOnlyOperationsHaveNoSideEffect := by
  intro s t i hr h
  rcases exec_readOnly_next hr h with ⟨d, rfl⟩ | rfl <;> rfl

end Sys2Proof.Machine

namespace Sys2Proof

open Machine

/-! ### Decoding what the encoder writes (30 R90, R92, R94) -/

theorem decode_cmd32 (u f : Byte) (o : Half) : decode (cmd32 u f o) = decodeUnit u f o := by
  simp only [decode, cmdUnit_cmd32, cmdFn_cmd32, cmdOpnd_cmd32]

theorem decodeUnit_rbUnit (q : RingId) (f : Byte) (o : Half) : decodeUnit (rbUnit q) f o = decodeRb q f o := by
  cases q <;> rfl

theorem decode_encode (i : Instr) : decode (encode i) = .ok i := by
  cases i with
  | rbWt q b =>
    rw [encode, decode_cmd32, decodeUnit_rbUnit]
    exact byteOperand_byteField b _
  | rbCm q | rbAb q | rbRd q | rbRdw q | rbPk q | rbSz q | rbEm q | rbFl q =>
    rw [encode, decode_cmd32, decodeUnit_rbUnit]
    rfl
  | spSend b | fcEnc b | fcDec b | ckUpd b =>
    rw [encode, decode_cmd32]
    exact byteOperand_byteField b _
  | _ =>
    rw [encode, decode_cmd32]
    rfl

/-- Settles O1: the decoder's case for each operation accepts the operand field that the encoder writes. -/
theorem decodeOfEncode : Obligations.DecodeOfEncode := decode_encode

/-! ### What the decoder accepts is what the encoder writes -/

/-- An operation read from these fields is written with them. -/
def WrittenAs (u f : Byte) (o : Half) (r : Except DecodeError Instr) : Prop :=
  ∀ i, r = .ok i → encode i = cmd32 u f o

namespace WrittenAs

variable {u f : Byte} {o : Half}

theorem ofError (e : DecodeError) : WrittenAs u f o (.error e) := nofun

theorem ofByte {mk : Byte → Instr} (h : ∀ b, encode (mk b) = cmd32 u f (byteField b)) :
    WrittenAs u f o (byteOperand o mk) := by
  intro i hi
  obtain ⟨b, rfl, rfl⟩ := byteOperand_ok hi
  exact h b

theorem ofNone {k : Instr} (h : encode k = cmd32 u f 0) : WrittenAs u f o (noOperand o k) := by
  intro i hi
  obtain ⟨rfl, rfl⟩ := noOperand_ok hi
  exact h

theorem ofHalf {mk : Half → Instr} (h : ∀ n, encode (mk n) = cmd32 u f n) : WrittenAs u f o (.ok (mk o)) := by
  rintro _ ⟨⟩
  exact h o

/-- One test of the function byte. -/
theorem testFn {c : Byte} {a b : Except DecodeError Instr} (ha : WrittenAs u c o a) (hb : WrittenAs u f o b) :
    WrittenAs u f o (if f = c then a else b) := by
  split
  case isTrue e => exact e ▸ ha
  case isFalse => exact hb

/-- One test of the unit byte. -/
theorem testUnit {c : Byte} {a b : Except DecodeError Instr} (ha : WrittenAs c f o a) (hb : WrittenAs u f o b) :
    WrittenAs u f o (if u = c then a else b) := by
  split
  case isTrue e => exact e ▸ ha
  case isFalse => exact hb

end WrittenAs

section
open WrittenAs

theorem decodeRb_writtenAs (q : RingId) (f : Byte) (o : Half) : WrittenAs (rbUnit q) f o (decodeRb q f o) := by
  unfold decodeRb
  exact testFn (ofByte fun _ => rfl) <| testFn (ofNone rfl) <| testFn (ofNone rfl) <| testFn (ofNone rfl) <|
    testFn (ofNone rfl) <| testFn (ofNone rfl) <| testFn (ofNone rfl) <| testFn (ofNone rfl) <|
    testFn (ofNone rfl) <| ofError _

theorem decodeSp_writtenAs (f : Byte) (o : Half) : WrittenAs 0x10 f o (decodeSp f o) := by
  unfold decodeSp
  exact testFn (ofByte fun _ => rfl) <| testFn (ofNone rfl) <| testFn (ofNone rfl) <| testFn (ofNone rfl) <|
    testFn (ofNone rfl) <| ofError _

theorem decodeFc_writtenAs (f : Byte) (o : Half) : WrittenAs 0x20 f o (decodeFc f o) := by
  unfold decodeFc
  exact testFn (ofByte fun _ => rfl) <| testFn (ofNone rfl) <| testFn (ofByte fun _ => rfl) <| testFn (ofNone rfl) <|
    testFn (ofNone rfl) <| testFn (ofHalf fun _ => rfl) <| ofError _

theorem decodeCk_writtenAs (f : Byte) (o : Half) : WrittenAs 0x30 f o (decodeCk f o) := by
  unfold decodeCk
  exact testFn (ofNone rfl) <| testFn (ofByte fun _ => rfl) <| testFn (ofNone rfl) <| ofError _

theorem decodeUnit_writtenAs (u f : Byte) (o : Half) : WrittenAs u f o (decodeUnit u f o) := by
  unfold decodeUnit
  exact testUnit (decodeRb_writtenAs .out f o) <| testUnit (decodeRb_writtenAs .inp f o) <|
    testUnit (decodeRb_writtenAs .aux f o) <| testUnit (ofError _) <|
    testUnit (decodeSp_writtenAs f o) <| testUnit (decodeFc_writtenAs f o) <|
    testUnit (decodeCk_writtenAs f o) <| ofError _

end

theorem encode_of_decode {w : Word} {i : Instr} (h : decode w = .ok i) : encode i = w :=
  (decodeUnit_writtenAs _ _ _ i h).trans (cmd32_fields w)

/-- Settles O2: every test of the decoder leads to an operation that is written with the tested value. -/
theorem encodeOfDecode : Obligations.EncodeOfDecode := fun _ _ => encode_of_decode

/-! ### Where the operands lie (30 R92) -/

/-- Bits of the unit byte. -/
theorem extract_cmdUnit (w : Word) {start len : Nat} (h : start + len ≤ 8) :
    w.extractLsb' (24 + start) len = (cmdUnit w).extractLsb' start len := by
  apply BitVec.eq_of_getLsbD_eq
  intro i hi
  simp [cmdUnit, hi, show start + i < 8 by omega, Nat.add_assoc]

/-- Bits of the operand field. -/
theorem extract_cmdOpnd (w : Word) {start len : Nat} (h : start + len ≤ 16) :
    w.extractLsb' start len = (cmdOpnd w).extractLsb' start len :=
  (BitVec.extractLsb'_extractLsb'_of_le h).symm

theorem rbUnit_fields (q : RingId) : ringNumber q = (rbUnit q).extractLsb' 0 2 ∧ (rbUnit q).extractLsb' 2 6 = 0 := by
  cases q <;> exact ⟨rfl, rfl⟩

theorem cmdOpnd_encode_of_byteArg {i : Instr} {b : Byte} (h : byteArg i = some b) :
    cmdOpnd (encode i) = byteField b := by
  cases i with
  | rbWt | spSend | fcEnc | fcDec | ckUpd =>
    cases h
    exact cmdOpnd_cmd32 ..
  | _ => cases h

theorem cmdOpnd_encode_of_no_operand {i : Instr} (hb : byteArg i = none) (hn : ∀ n, i ≠ .fcRdb n) :
    cmdOpnd (encode i) = 0 := by
  cases i with
  | rbWt | spSend | fcEnc | fcDec | ckUpd => cases hb
  | fcRdb n => exact absurd rfl (hn n)
  | _ => exact cmdOpnd_cmd32 ..

theorem cmdUnit_encode_of_ringUse {i : Instr} {side : Side} {q : RingId} (h : i.ringUse = some (side, q)) :
    cmdUnit (encode i) = rbUnit q := by
  cases i with
  | rbWt | rbCm | rbAb | rbRd | rbRdw | rbPk | rbSz | rbEm | rbFl =>
    cases h
    exact cmdUnit_cmd32 ..
  | _ => cases h

/-- Settles O4: the word is the encoding of what it decodes to, and the encoder puts the operands there. -/
theorem operandsLieAsAssembled : Obligations.OperandsLieAsAssembled := by
  intro w i h
  obtain rfl := encode_of_decode h
  refine ⟨fun b hb => ?_, ?_, fun side q hq => ?_, cmdOpnd_encode_of_no_operand⟩
  · have ho := cmdOpnd_encode_of_byteArg hb
    rw [extract_cmdOpnd (start := 0) _ (by decide), extract_cmdOpnd (start := 8) _ (by decide), ho]
    exact ⟨(byteField_low b).symm, byteField_high b⟩
  · rintro n rfl
    exact (cmdOpnd_cmd32 _ _ n).symm
  · have hu := cmdUnit_encode_of_ringUse hq
    rw [extract_cmdUnit (start := 0) _ (by decide), extract_cmdUnit (start := 2) _ (by decide), hu]
    exact rbUnit_fields q

/-! ### Words and the rows of the opcode map (30 R94) -/

/-- Bits 31:26 are zero and bits 25:24 name the reserved buffer, 3, exactly when the unit byte is 0x03. -/
theorem reserved_iff (w : Word) : w.extractLsb' 26 6 = 0 ∧ w.extractLsb' 24 2 = 3 ↔ cmdUnit w = 3 := by
  rw [extract_cmdUnit (start := 2) w (by decide), extract_cmdUnit (start := 0) w (by decide)]
  generalize cmdUnit w = u
  revert u
  decide

theorem cmdUnit_ne_three_of_decode {w : Word} {i : Instr} (h : decode w = .ok i) : cmdUnit w ≠ 3 := by
  intro hu
  rw [decode, hu] at h
  cases h

theorem opcodeRow_selects_encode (i : Instr) : (opcodeRow i).selects (encode i) = true := by
  cases i with
  | rbWt q b => exact Laws.RowMatch.rbWt q b
  | rbCm q => exact Laws.RowMatch.rbCm q
  | rbAb q => exact Laws.RowMatch.rbAb q
  | rbRd q => exact Laws.RowMatch.rbRd q
  | rbRdw q => exact Laws.RowMatch.rbRdw q
  | rbPk q => exact Laws.RowMatch.rbPk q
  | rbSz q => exact Laws.RowMatch.rbSz q
  | rbEm q => exact Laws.RowMatch.rbEm q
  | rbFl q => exact Laws.RowMatch.rbFl q
  | spSend b => exact Laws.RowMatch.spSend b
  | spCommit => exact Laws.RowMatch.spCommit
  | spAvail => exact Laws.RowMatch.spAvail
  | spGet => exact Laws.RowMatch.spGet
  | spIdle => exact Laws.RowMatch.spIdle
  | fcEnc b => exact Laws.RowMatch.fcEnc b
  | fcEnd => exact Laws.RowMatch.fcEnd
  | fcDec b => exact Laws.RowMatch.fcDec b
  | fcIdxq => exact Laws.RowMatch.fcIdxq
  | fcEscq => exact Laws.RowMatch.fcEscq
  | fcRdb n => exact Laws.RowMatch.fcRdb n
  | ckRst => exact Laws.RowMatch.ckRst
  | ckUpd b => exact Laws.RowMatch.ckUpd b
  | ckGet => exact Laws.RowMatch.ckGet

theorem opcodeRow_mem (i : Instr) : opcodeRow i ∈ opcodeMap := by
  cases i <;> simp [opcodeMap, opcodeRow]

theorem row_is_of_an_operation : ∀ r ∈ opcodeMap, ∃ k, opcodeRow k = r := by
  simp [opcodeMap, or_imp, forall_and]

/-- The mask of a byte operand's row leaves only `cmd[7:0]` free. -/
theorem byteField_of_masked {o : Half} (h : o &&& 0xFF00#16 = 0) : ∃ b, o = byteField b := by
  have high : o.extractLsb' 8 8 = 0 := by
    have h8 := congrArg (BitVec.extractLsb' 8 8) h
    rw [BitVec.extractLsb'_and] at h8
    exact (BitVec.and_allOnes (x := o.extractLsb' 8 8)).symm.trans h8
  refine ⟨o.extractLsb' 0 8, ?_⟩
  calc
    o = o.extractLsb' 8 8 ++ o.extractLsb' 0 8 :=
      (BitVec.extractLsb'_append_extractLsb' (w := 8) (len := 8) (x := o)).symm
    _ = byteField (o.extractLsb' 0 8) := by rw [high]; rfl

/-- The mask of unit RB's rows leaves only the buffer's number in `cmd[25:24]` free. -/
theorem rbUnit_of_masked {u : Byte} (h : u &&& 0xFC#8 = 0) (h3 : u ≠ 3) : ∃ q, u = rbUnit q := by
  have hu : ∀ u : Byte, u &&& 0xFC#8 = 0 → u ≠ 3 → u = rbUnit .out ∨ u = rbUnit .inp ∨ u = rbUnit .aux := by decide
  rcases hu u h h3 with e | e | e <;> exact ⟨_, e⟩

section
variable {n : String} {w : Word}

/-- A row that leaves no bit free. -/
theorem eq_of_selects {p : Word} (h : (OpcodeRow.mk n p (BitVec.allOnes 32)).selects w = true) : p = w := by
  rw [OpcodeRow.selects, beq_iff_eq, BitVec.and_allOnes] at h
  exact h.symm

/-- A row that leaves operand bits free. -/
theorem eq_cmd32_of_selects (u f : Byte) (m : Half)
    (h : (OpcodeRow.mk n (cmd32 u f 0) (cmd32 (BitVec.allOnes 8) (BitVec.allOnes 8) m)).selects w = true) :
    ∃ o, cmd32 u f o = w ∧ o &&& m = 0 := by
  obtain ⟨hu, hf, ho⟩ := (selects_cmd32 ..).mp h
  rw [BitVec.and_allOnes] at hu hf
  refine ⟨cmdOpnd w, ?_, ho⟩
  rw [← hu, ← hf, cmd32_fields]

/-- A row of unit RB. -/
theorem eq_cmd32_rbUnit_of_selects (hw : cmdUnit w ≠ 3) (f : Byte) (m : Half)
    (h : (OpcodeRow.mk n (cmd32 0 f 0) (cmd32 0xFC#8 (BitVec.allOnes 8) m)).selects w = true) :
    ∃ q o, cmd32 (rbUnit q) f o = w ∧ o &&& m = 0 := by
  obtain ⟨hu, hf, ho⟩ := (selects_cmd32 ..).mp h
  obtain ⟨q, hq⟩ := rbUnit_of_masked hu hw
  rw [BitVec.and_allOnes] at hf
  refine ⟨q, cmdOpnd w, ?_, ho⟩
  rw [← hq, ← hf, cmd32_fields]

/-- A row of unit RB with no operand. -/
theorem eq_rbWord_of_selects (hw : cmdUnit w ≠ 3) (f : Byte)
    (h : (OpcodeRow.mk n (cmd32 0 f 0) (cmd32 0xFC#8 (BitVec.allOnes 8) (BitVec.allOnes 16))).selects w = true) :
    ∃ q, cmd32 (rbUnit q) f 0 = w := by
  obtain ⟨q, o, rfl, ho⟩ := eq_cmd32_rbUnit_of_selects hw f _ h
  rw [BitVec.and_allOnes] at ho
  exact ⟨q, ho ▸ rfl⟩

/-- A row with a byte operand, not of unit RB. -/
theorem eq_byteWord_of_selects (u f : Byte)
    (h : (OpcodeRow.mk n (cmd32 u f 0) (cmd32 (BitVec.allOnes 8) (BitVec.allOnes 8) 0xFF00#16)).selects w = true) :
    ∃ b, cmd32 u f (byteField b) = w := by
  obtain ⟨o, rfl, ho⟩ := eq_cmd32_of_selects u f _ h
  obtain ⟨b, rfl⟩ := byteField_of_masked ho
  exact ⟨b, rfl⟩

end

/-- A word that selects an operation's row is the encoding of an operation of that row. -/
theorem operation_of_selected_row {w : Word} (k : Instr) (hw : cmdUnit w ≠ 3) (h : (opcodeRow k).selects w = true) :
    ∃ i, opcodeRow i = opcodeRow k ∧ encode i = w := by
  cases k with
  | rbWt =>
    obtain ⟨q, o, rfl, ho⟩ := eq_cmd32_rbUnit_of_selects hw 0x00 0xFF00 h
    obtain ⟨b, rfl⟩ := byteField_of_masked ho
    exact ⟨.rbWt q b, rfl, rfl⟩
  | rbCm => exact (eq_rbWord_of_selects hw 0x01 h).elim fun q e => ⟨.rbCm q, rfl, e⟩
  | rbAb => exact (eq_rbWord_of_selects hw 0x02 h).elim fun q e => ⟨.rbAb q, rfl, e⟩
  | rbRd => exact (eq_rbWord_of_selects hw 0x03 h).elim fun q e => ⟨.rbRd q, rfl, e⟩
  | rbRdw => exact (eq_rbWord_of_selects hw 0x04 h).elim fun q e => ⟨.rbRdw q, rfl, e⟩
  | rbPk => exact (eq_rbWord_of_selects hw 0x05 h).elim fun q e => ⟨.rbPk q, rfl, e⟩
  | rbSz => exact (eq_rbWord_of_selects hw 0x06 h).elim fun q e => ⟨.rbSz q, rfl, e⟩
  | rbEm => exact (eq_rbWord_of_selects hw 0x07 h).elim fun q e => ⟨.rbEm q, rfl, e⟩
  | rbFl => exact (eq_rbWord_of_selects hw 0x08 h).elim fun q e => ⟨.rbFl q, rfl, e⟩
  | spSend => exact (eq_byteWord_of_selects 0x10 0x00 h).elim fun b e => ⟨.spSend b, rfl, e⟩
  | fcEnc => exact (eq_byteWord_of_selects 0x20 0x00 h).elim fun b e => ⟨.fcEnc b, rfl, e⟩
  | fcDec => exact (eq_byteWord_of_selects 0x20 0x02 h).elim fun b e => ⟨.fcDec b, rfl, e⟩
  | ckUpd => exact (eq_byteWord_of_selects 0x30 0x01 h).elim fun b e => ⟨.ckUpd b, rfl, e⟩
  | fcRdb => exact (eq_cmd32_of_selects 0x20 0x05 0 h).elim fun n e => ⟨.fcRdb n, rfl, e.1⟩
  | spCommit | spAvail | spGet | spIdle | fcEnd | fcIdxq | fcEscq | ckRst | ckGet => exact ⟨_, rfl, eq_of_selects h⟩

/-- Settles O3: but for the reserved number 3, a word that selects a row is the encoding of an operation of that row,
and the decoder reads back every encoding. -/
theorem decodeFollowsOpcodeMap : Obligations.DecodeFollowsOpcodeMap := by
  have operation {w : Word} {r : OpcodeRow} (hw : cmdUnit w ≠ 3) (hr : r ∈ opcodeMap) (h : r.selects w = true) :
      ∃ i, opcodeRow i = r ∧ encode i = w := by
    obtain ⟨k, rfl⟩ := row_is_of_an_operation r hr
    exact operation_of_selected_row k hw h
  simp only [Obligations.DecodeFollowsOpcodeMap, reserved_iff]
  refine ⟨fun w => ⟨?_, ?_⟩, fun w i h => ⟨opcodeRow_mem i, fun r hr => ⟨fun hs => ?_, ?_⟩⟩⟩
  · rintro ⟨i, h⟩
    refine ⟨⟨opcodeRow i, opcodeRow_mem i, ?_⟩, cmdUnit_ne_three_of_decode h⟩
    exact encode_of_decode h ▸ opcodeRow_selects_encode i
  · rintro ⟨⟨r, hr, hs⟩, hw⟩
    obtain ⟨i, -, rfl⟩ := operation hw hr hs
    exact ⟨i, decode_encode i⟩
  · obtain ⟨j, rfl, rfl⟩ := operation (cmdUnit_ne_three_of_decode h) hr hs
    rw [decode_encode] at h
    cases h
    rfl
  · rintro rfl
    exact encode_of_decode h ▸ opcodeRow_selects_encode i

end Sys2Proof

namespace Sys2Proof.Machine

/-- Settles O5: the decoder's own computation, one word of each family after another. -/
theorem wordsOfEachFamily : Obligations.WordsOfEachFamily :=
  ⟨rfl, rfl, rfl, rfl, rfl, rfl, rfl, rfl, rfl, rfl, rfl, rfl⟩

/-! ### The response word (30 R91) -/

theorem respWord_high (ok : Bool) (data : Half) : (respWord ok data).extractLsb' 17 15 = 0 := by
  rw [respWord, BitVec.extractLsb'_append_eq_of_le (by decide)]
  exact BitVec.extractLsb'_append_eq_left

theorem respWord_ok (ok : Bool) (data : Half) : (respWord ok data).getLsbD 16 = ok := by
  rw [respWord, BitVec.getLsbD_append, BitVec.getLsbD_append]
  cases ok <;> rfl

theorem respWord_data (ok : Bool) (data : Half) : (respWord ok data).extractLsb' 0 16 = data :=
  BitVec.extractLsb'_append_eq_right

/-- Settles O6: the response word is its three fields, appended. -/
theorem responseWordFields : Obligations.ResponseWordFields :=
  fun ok data => ⟨respWord_high ok data, respWord_ok ok data, respWord_data ok data⟩

/-! ### The issue of a command word (30 R90, R98) -/

theorem step_issues {s : State} {ms : List Move} {w : Word} {ws : List Word} (hm : s.schedule = .fg :: ms)
    (hp : s.fgPhase = .idle) (hw : s.cmds = w :: ws) :
    step s = issueWord w { s with schedule := ms, cmds := ws, resp := none } := by
  simp only [step_scheduled hm, runMove_fg, hp, hw]

/-- Settles O8: FG's move issues the word, and the issue runs what the word decodes to. -/
theorem stepRunsTheDecodedOperation : Obligations.StepRunsTheDecodedOperation := by
  intro s ms w ws i hm hp hw hi
  rw [step_issues hm hp hw, issueWord, hi]

/-- Settles O9: FG's move issues the word, and the issue refuses one with no meaning. -/
theorem stepRefusesWordWithNoMeaning : Obligations.StepRefusesWordWithNoMeaning := by
  intro s ms w ws e hm hp hw he
  rw [step_issues hm hp hw, issueWord, he]

/-! ### Off its side an operation is refused by name (30 R97) -/

theorem exec_refused {i : Instr} {side : Side} {q : RingId} {s : State} {r : Refusal}
    (hi : i.ringUse = some (side, q)) (hr : portCheck side q s = some r) : exec i s = .refused r := by
  obtain ⟨o, e⟩ := exec_eq_guardPort hi s
  rw [e, guardPort, hr]

/-- Settles O19: the port check gives FG no producer's side of IN, no consumer's side of OUT and no absent AUX. -/
theorem wrongSideIsRefused : Obligations.WrongSideIsRefused := by
  intro s b
  have producers : ∀ i ∈ [Instr.rbWt .inp b, .rbCm .inp, .rbAb .inp], i.ringUse = some (.producer, .inp) := by
    simp [Instr.ringUse]
  have consumers : ∀ i ∈ [Instr.rbRd .out, .rbRdw .out, .rbPk .out], i.ringUse = some (.consumer, .out) := by
    simp [Instr.ringUse]
  refine ⟨fun i hi => exec_refused (producers i hi) rfl, fun i hi => exec_refused (consumers i hi) rfl, ?_⟩
  intro hs i side hi
  exact exec_refused hi (by simp [portCheck, hs])

/-- Settles O51: with the indices in range an accepted operation answers, and the port check refuses any other. -/
theorem acceptedOperationsRun : Obligations.AcceptedOperationsRun :=
  fun _ _ hs => ⟨exec_runs (ring_inRange hs), exec_refuses⟩

/-! ### The encoding of a byte (30 R81) -/

theorem escapeCode_verbatim {b : Byte} (hEnd : b ≠ bEND) (hEsc : b ≠ bESC) : escapeCode b = none := by
  rw [escapeCode, if_neg hEnd, if_neg hEsc]

theorem slipEnc_verbatim {b : Byte} (hEnd : b ≠ bEND) (hEsc : b ≠ bESC) : slipEnc b = [b] := by
  rw [slipEnc, escapeCode_verbatim hEnd hEsc]

theorem end_notMem_slipEnc (b : Byte) : bEND ∉ slipEnc b := by
  by_cases hEnd : b = bEND
  · subst hEnd
    decide
  · by_cases hEsc : b = bESC
    · subst hEsc
      decide
    · rw [slipEnc_verbatim hEnd hEsc, List.mem_singleton]
      exact Ne.symm hEnd

/-- Settles O30: END and ESC have their pairs, and any other byte, which is no END, stands for itself. -/
theorem slipEncTable : Obligations.SlipEncTable :=
  ⟨rfl, rfl, fun _ => slipEnc_verbatim, end_notMem_slipEnc⟩

end Sys2Proof.Machine

namespace Sys2Proof.Machine

/-! ### What unit RB's operations answer (41 R110 to R118)

Each operation on a side FG has, in each of its cases, as the state it answers. -/

theorem cap_pos {s : State} (hs : s.cfg.Valid) (q : RingId) : 1 ≤ s.cap q := by
  obtain ⟨⟨hout, -⟩, ⟨hinp, -⟩, ⟨haux, -⟩, -⟩ := hs
  cases q with
  | out => exact hout
  | inp => exact hinp
  | aux => exact haux

section
variable {s : State} {q : RingId} (hq : s.FgProduces q)
include hq

/-- RB.WT with room: only `tentative` has to be in range. -/
theorem exec_rbWt_staging (b : Byte) (hf : (s.ring q).full = false) (ht : (s.ring q).tentative.toNat < s.cap q) :
    exec (.rbWt q b) s = .next (respondFree true (s.setRing q ((s.ring q).staging (s.cap q) b))) := by
  change guardPort .producer q s (stageAndRespond q b s) = _
  rw [guardPort_ok _ (portCheck_producer.mpr hq), stageAndRespond, stage_room b hf ht]

theorem exec_rbWt_full (b : Byte) (hf : (s.ring q).full = true) :
    exec (.rbWt q b) s = .next (respondFree false s) := by
  change guardPort .producer q s (stageAndRespond q b s) = _
  rw [guardPort_ok _ (portCheck_producer.mpr hq), stageAndRespond, stage_full b hf]

theorem exec_rbCm : exec (.rbCm q) s = .next (respondFree true (s.setRing q (s.ring q).commit)) :=
  guardPort_ok _ (portCheck_producer.mpr hq)

theorem exec_rbAb : exec (.rbAb q) s = .next (respondFree true (s.setRing q (s.ring q).abort)) :=
  guardPort_ok _ (portCheck_producer.mpr hq)

end

section
variable {s : State} {q : RingId} (hq : s.FgConsumes q)
include hq

theorem exec_rbRd_popping (he : ¬(s.ring q).Empty) (hr : (s.ring q).read.toNat < s.cap q) :
    exec (.rbRd q) s = .next (respond true
      (byteData (Memory.byteAt (.ring q) (s.ring q).buf (s.ring q).read.toNat))
      (s.setRing q ((s.ring q).popping (s.cap q)))) := by
  change guardPort .consumer q s (popAndRespond q s) = _
  rw [guardPort_ok _ (portCheck_consumer.mpr hq), popAndRespond, pop_of_byte he hr]
  rfl

theorem exec_rbRd_empty (he : (s.ring q).Empty) : exec (.rbRd q) s = .next (respondFree false s) := by
  change guardPort .consumer q s (popAndRespond q s) = _
  rw [guardPort_ok _ (portCheck_consumer.mpr hq), popAndRespond, pop_of_empty he]
  rfl

end

section
variable {s : State} {q : RingId} (hq : s.RingExists q)
include hq

theorem exec_rbSz :
    exec (.rbSz q) s = .next (respond true (BitVec.ofNat 16 ((s.ring q).size (s.cap q))) s) :=
  guardPort_ok _ (portCheck_status.mpr hq)

theorem exec_rbEm : exec (.rbEm q) s = .next (respond true (boolData (s.ring q).isEmpty) s) :=
  guardPort_ok _ (portCheck_status.mpr hq)

theorem exec_rbFl : exec (.rbFl q) s = .next (respond true (boolData (s.ring q).full) s) :=
  guardPort_ok _ (portCheck_status.mpr hq)

end

/-! ### The operations one by one (41 R110, R112, R113, R114) -/

theorem respondFree_answered (ok : Bool) (s : State) : (respondFree ok s).Answered ok := ⟨_, rfl⟩

/-- A state that differs in one buffer, the response and the count of free values, in the words of the statements. -/
theorem respondFree_setRing_frame (ok : Bool) (s : State) (q : RingId) (r : RingBuf) :
    let t := respondFree ok (s.setRing q r)
    t = { s.setRing q (t.ring q) with resp := t.resp, draws := t.draws } := by
  dsimp only
  rw [ring_respondFree, ring_setRing_self]
  rfl

/-- Settles O10: with room the buffer is `staging`, which is R110's description; a full one is left. -/
theorem rbWtStagesOneByte : Obligations.RbWtStagesOneByte := by
  intro s q b hs hq ht
  cases hf : (s.ring q).full with
  | false =>
    refine ⟨_, exec_rbWt_staging hq b hf ht, fun _ => ⟨?_, respondFree_answered ..⟩, nofun,
      respondFree_setRing_frame ..⟩
    rw [ring_respondFree, ring_setRing_self]
    exact staging_stagedTo _ b (cap_pos hs q) (cap_le hs q)
  | true =>
    refine ⟨_, exec_rbWt_full hq b hf, nofun, fun _ => ⟨ring_respondFree .., respondFree_answered ..⟩, ?_⟩
    rw [ring_respondFree, setRing_ring]
    rfl

/-- Settles O11: the port check lets FG commit, and the buffer is `commit`. -/
theorem rbCmPublishes : Obligations.RbCmPublishes := by
  intro s q hq
  refine ⟨_, exec_rbCm hq, ?_, respondFree_answered .., respondFree_setRing_frame ..⟩
  rw [ring_respondFree, ring_setRing_self]
  rfl

theorem abort_of_staged {q : RingBuf} (h : q.tentative ≠ q.write) :
    q.abort = { q with tentative := q.write, full := false } := if_neg h

theorem abort_of_settled {q : RingBuf} (h : q.tentative = q.write) : q.abort = q := if_pos h

/-- Settles O12: the port check lets FG abort, and the buffer is `abort`, in its two cases. -/
theorem rbAbDiscards : Obligations.RbAbDiscards := by
  intro s q hq
  refine ⟨_, exec_rbAb hq, ?_, ?_, respondFree_answered .., respondFree_setRing_frame ..⟩ <;>
    rw [ring_respondFree, ring_setRing_self]
  · exact abort_of_staged
  · exact abort_of_settled

/-- Settles O13: with a byte the buffer is `popping`, which is R114's description; an empty one is left. -/
theorem rbRdPops : Obligations.RbRdPops := by
  intro s q hs hq hr
  refine ⟨fun he => ⟨_, exec_rbRd_popping hq he hr, ?_, ?_⟩,
    fun he => ⟨_, exec_rbRd_empty hq he, respondFree_answered .., rfl⟩⟩ <;>
    rw [ring_respond, ring_setRing_self]
  · exact popping_poppedTo _ (cap_pos hs q) (cap_le hs q)
  · rfl

/-! ### The status of a buffer (41 R116, R117, R118) -/

theorem size_of_full {n : Nat} {q : RingBuf} (h : q.full = true) : q.size n = n := if_pos h

theorem size_of_not_full {n : Nat} {q : RingBuf} (h : q.full = false) : q.size n = diffN n q.write q.read :=
  if_neg (by simp [h])

theorem diffN_lt {n : Nat} (a b : Byte) (hn : 1 ≤ n) : diffN n a b < n := by
  have hlt := Int.emod_lt_of_pos ((a.toNat : Int) - b.toNat) (show (0 : Int) < n by omega)
  rw [← diffN_eq_emod a b hn] at hlt
  exact_mod_cast hlt

theorem diffN_eq_zero_iff {n : Nat} {a b : Byte} (ha : a.toNat < n) (hb : b.toNat < n) :
    diffN n a b = 0 ↔ b = a := by
  rw [diffN_eq_ite ha hb, ← BitVec.toNat_inj]
  split <;> omega

theorem size_le {n : Nat} (q : RingBuf) (hn : 1 ≤ n) : q.size n ≤ n := by
  unfold RingBuf.size
  split
  · exact le_rfl
  · exact (diffN_lt _ _ hn).le

theorem size_eq_cap_iff {n : Nat} {q : RingBuf} (hn : 1 ≤ n) : q.size n = n ↔ q.full = true := by
  cases hf : q.full with
  | false =>
    rw [size_of_not_full hf]
    exact iff_of_false (diffN_lt _ _ hn).ne Bool.false_ne_true
  | true => exact iff_of_true (size_of_full hf) rfl

theorem size_eq_zero_iff {n : Nat} {q : RingBuf} (hq : q.InRange n) : q.size n = 0 ↔ q.Empty := by
  obtain ⟨hread, hwrite, -⟩ := hq
  cases hf : q.full with
  | false => rw [size_of_not_full hf, diffN_eq_zero_iff hwrite hread, RingBuf.Empty, hf, and_iff_left rfl]
  | true =>
    rw [size_of_full hf]
    exact iff_of_false (by omega) fun ⟨_, he⟩ => Bool.false_ne_true (he.symm.trans hf)

theorem pop_fails_iff {sp : Space} {n : Nat} {q : RingBuf} (hr : q.read.toNat < n) :
    (∃ q', q.pop sp n = .ok (none, q')) ↔ q.Empty := by
  constructor
  · rintro ⟨q', h⟩
    by_contra he
    rw [pop_byte he hr] at h
    cases h
  · exact fun he => ⟨q, pop_empty he⟩

theorem writeTentative_fails_iff {sp : Space} {n : Nat} {q : RingBuf} (b : Byte) (ht : q.tentative.toNat < n) :
    (∃ q', q.writeTentative sp n b = .ok (false, q')) ↔ q.full = true := by
  constructor
  · rintro ⟨q', h⟩
    by_contra hf
    rw [writeTentative_room b (Bool.not_eq_true _ ▸ hf) ht] at h
    cases h
  · exact fun hf => ⟨q, writeTentative_full b hf⟩

/-- Settles O17: the three answers are `size`, `isEmpty` and `full`; a size is at most N, so it fits the data field. -/
theorem rbStatusAnswers : Obligations.RbStatusAnswers := by
  intro s q hs hq
  have hpos := cap_pos hs q
  have hd : (BitVec.ofNat 16 ((s.ring q).size (s.cap q))).toNat = (s.ring q).size (s.cap q) := by
    have := size_le (s.ring q) hpos
    have := cap_le hs q
    rw [BitVec.toNat_ofNat]
    omega
  refine ⟨⟨_, exec_rbSz hq, fun hf => ?_, fun hf => ?_⟩, ?_, exec_rbFl hq⟩
  · rw [hd, size_of_full hf]
  · rw [hd, size_of_not_full hf, diffN_eq_emod _ _ hpos]
  · rw [exec_rbEm hq, boolData]
    simp only [ringBuf_isEmpty_iff]
    rfl

/-- Settles O18: each of the four is being empty, or being full. -/
theorem statusAgreesWithReadAndWrite : Obligations.StatusAgreesWithReadAndWrite := by
  intro sp n q b hq
  rw [ringBuf_isEmpty_iff]
  obtain ⟨hread, -, htentative⟩ := id hq
  exact ⟨(size_eq_zero_iff hq).symm, (pop_fails_iff hread).symm, (size_eq_cap_iff (by omega)).symm,
    (writeTentative_fails_iff b htentative).symm⟩

/-! ### A transaction and the reads of it (41 R126) -/

theorem execAll_append {is js : List Instr} {s t : State} (h : execAll is s = .next t) :
    execAll (is ++ js) s = execAll js t := by
  induction is generalizing s with
  | nil =>
    obtain rfl := Host.Outcome.next.inj h
    rfl
  | cons i is ih =>
    simp only [List.cons_append, execAll] at h ⊢
    split at h
    · exact ih h
    · cases h
    · cases h

theorem execAll_cons {i : Instr} {is : List Instr} {s t : State} (h : exec i s = .next t) :
    execAll (i :: is) s = execAll is t := by
  rw [execAll, h]

/-- The bytes `bs` lie in the buffer from `read` on, up to the index `stop`: `tentative` for a producer, `write` for a
consumer. No form of the array is asked for. -/
structure RingBuf.Queued (sp : Space) (n : Nat) (q : RingBuf) (stop : Byte) (bs : List Byte) : Prop where
  read_lt : q.read.toNat < n
  length_le : bs.length ≤ n
  stop_eq : stop.toNat = (q.read.toNat + bs.length) % n
  full_iff : q.full = true ↔ bs.length = n
  byte : ∀ k (h : k < bs.length), Memory.byteAt sp q.buf ((q.read.toNat + k) % n) = bs[k]

/-- Elements fewer than N places on from one element are different ones. -/
theorem offset_inj {n r j k : Nat} (hj : j < n) (hk : k < n) (h : (r + j) % n = (r + k) % n) : j = k :=
  (Nat.ModEq.add_left_cancel' r h).eq_of_lt_of_lt hj hk

/-- Going on from an element by at least one place and at most N, one comes back to it after N. -/
theorem offset_eq_self_iff {n r k : Nat} (hr : r < n) (hk : 0 < k) (hkn : k ≤ n) : (r + k) % n = r ↔ k = n := by
  constructor
  · intro h
    by_contra hne
    have : k = 0 := offset_inj (by omega) (by omega) (h.trans (Nat.mod_eq_of_lt hr).symm)
    omega
  · rintro rfl
    rw [Nat.add_mod_right, Nat.mod_eq_of_lt hr]

theorem queued_nil {n : Nat} (sp : Space) {q : RingBuf} (hr : q.read.toNat < n) (hf : q.full = false) :
    q.Queued sp n q.read [] where
  read_lt := hr
  length_le := Nat.zero_le n
  stop_eq := (Nat.mod_eq_of_lt hr).symm
  full_iff := iff_of_false (by simp [hf]) (by simp; omega)
  byte := nofun

namespace RingBuf.Queued
variable {sp : Space} {n : Nat} {q : RingBuf} {bs : List Byte}

theorem staging (b : Byte) (hn : n ≤ 255) (h : q.Queued sp n q.tentative bs) (hlen : bs.length < n) :
    (q.staging n b).Queued sp n (q.staging n b).tentative (bs ++ [b]) := by
  have hstop : (incN n q.tentative).toNat = (q.read.toNat + (bs.length + 1)) % n := by
    rw [incN_toNat _ (by omega) hn, h.stop_eq, Nat.mod_add_mod, Nat.add_assoc]
  refine ⟨h.read_lt, by simpa using hlen, ?_, ?_, fun k hk => ?_⟩
  · rwa [List.length_append]
  · rw [List.length_append, List.length_singleton, ← offset_eq_self_iff h.read_lt (by omega) hlen, ← hstop,
      BitVec.toNat_inj]
    exact beq_iff_eq
  · change Memory.byteAt sp (Memory.store q.buf q.tentative.toNat b) ((q.read.toNat + k) % n) = _
    rw [List.length_append, List.length_singleton] at hk
    rcases Nat.lt_succ_iff_lt_or_eq.mp hk with hk | rfl
    · have hne : (q.read.toNat + k) % n ≠ q.tentative.toNat := fun e =>
        hk.ne (offset_inj (hk.trans hlen) hlen (e.trans h.stop_eq))
      rw [byteAt_store_of_ne _ _ _ hne, h.byte k hk, List.getElem_append_left hk]
    · rw [← h.stop_eq, byteAt_store_self, List.getElem_concat_length rfl]

theorem commit (h : q.Queued sp n q.tentative bs) : q.commit.Queued sp n q.commit.write bs :=
  ⟨h.read_lt, h.length_le, h.stop_eq, h.full_iff, h.byte⟩

theorem empty (h : q.Queued sp n q.write []) : q.Empty := by
  have hstop : q.write.toNat = q.read.toNat := h.stop_eq.trans (Nat.mod_eq_of_lt h.read_lt)
  refine ⟨(BitVec.eq_of_toNat_eq hstop).symm, ?_⟩
  rw [← Bool.not_eq_true, h.full_iff, List.length_nil]
  have := h.read_lt
  omega

theorem not_empty {b : Byte} (h : q.Queued sp n q.write (b :: bs)) : ¬q.Empty := by
  rintro ⟨hread, hf⟩
  have hback : (q.read.toNat + (b :: bs).length) % n = q.read.toNat := by rw [← h.stop_eq, hread]
  rw [offset_eq_self_iff (k := (b :: bs).length) h.read_lt (Nat.succ_pos _) h.length_le, ← h.full_iff, hf] at hback
  cases hback

theorem head {b : Byte} (h : q.Queued sp n q.write (b :: bs)) : Memory.byteAt sp q.buf q.read.toNat = b := by
  have := h.byte 0 (Nat.succ_pos _)
  rwa [Nat.add_zero, Nat.mod_eq_of_lt h.read_lt] at this

theorem popping {b : Byte} (hn : n ≤ 255) (h : q.Queued sp n q.write (b :: bs)) :
    (q.popping n).Queued sp n (q.popping n).write bs := by
  have hpos : 0 < n := Nat.zero_lt_of_lt h.read_lt
  have hlen : bs.length < n := h.length_le
  have hnext (k : Nat) : ((incN n q.read).toNat + k) % n = (q.read.toNat + (k + 1)) % n := by
    rw [incN_toNat _ hpos hn, Nat.mod_add_mod, Nat.add_assoc, Nat.add_comm 1]
  refine ⟨?_, hlen.le, h.stop_eq.trans (hnext bs.length).symm, iff_of_false Bool.false_ne_true hlen.ne,
    fun k hk => ?_⟩
  · exact (incN_toNat _ hpos hn).trans_lt (Nat.mod_lt _ hpos)
  · exact (congrArg _ (hnext k)).trans (h.byte (k + 1) (Nat.succ_lt_succ hk))

end RingBuf.Queued

/-- Bytes that fit are staged one after another, behind those that are there. -/
theorem execAll_rbWt_queued {q : RingId} (bs : List Byte) {cs : List Byte} {s : State} (hn : s.cap q ≤ 255)
    (hq : s.FgProduces q) (hc : (s.ring q).Queued (.ring q) (s.cap q) (s.ring q).tentative cs)
    (hfit : cs.length + bs.length ≤ s.cap q) :
    ∃ t, execAll (bs.map (.rbWt q)) s = .next t ∧ t.cfg = s.cfg
      ∧ (t.ring q).Queued (.ring q) (s.cap q) (t.ring q).tentative (cs ++ bs) := by
  induction bs generalizing s cs with
  | nil => exact ⟨s, rfl, rfl, by rwa [List.append_nil]⟩
  | cons b bs ih =>
    rw [List.length_cons] at hfit
    have hf : (s.ring q).full = false := by
      rw [← Bool.not_eq_true, hc.full_iff]
      omega
    have ht : (s.ring q).tentative.toNat < s.cap q := hc.stop_eq ▸ Nat.mod_lt _ (by omega)
    have hstaged := hc.staging b hn (by omega)
    obtain ⟨t, hrun, hcfg, hqueued⟩ :=
      ih (s := respondFree true (s.setRing q ((s.ring q).staging (s.cap q) b))) hn hq (by simpa using hstaged)
        (by simp; omega)
    refine ⟨t, (execAll_cons (exec_rbWt_staging hq b hf ht)).trans hrun, hcfg, ?_⟩
    rwa [List.append_assoc] at hqueued

/-- The k-th of the reads answers the k-th of the bytes, and one read more than there are bytes fails. -/
theorem execAll_rbRd_queued {q : RingId} (bs : List Byte) {s : State} (hn : s.cap q ≤ 255) (hq : s.FgConsumes q)
    (hc : (s.ring q).Queued (.ring q) (s.cap q) (s.ring q).write bs) :
    (∀ k (h : k < bs.length), ∃ t, execAll (List.replicate (k + 1) (.rbRd q)) s = .next t
      ∧ t.resp = some (respWord true (byteData bs[k])))
    ∧ ∃ t, execAll (List.replicate (bs.length + 1) (.rbRd q)) s = .next t ∧ t.Answered false := by
  induction bs generalizing s with
  | nil => exact ⟨nofun, _, execAll_cons (exec_rbRd_empty hq hc.empty), respondFree_answered ..⟩
  | cons b bs ih =>
    have hrun := exec_rbRd_popping hq hc.not_empty hc.read_lt
    rw [hc.head] at hrun
    have hpopped := hc.popping hn
    obtain ⟨hbytes, hlast⟩ :=
      ih (s := respond true (byteData b) (s.setRing q ((s.ring q).popping (s.cap q)))) hn hq (by simpa using hpopped)
    refine ⟨fun k hk => ?_, by rwa [List.length_cons, List.replicate_succ, execAll_cons hrun]⟩
    rw [List.replicate_succ, execAll_cons hrun]
    cases k with
    | zero => exact ⟨_, rfl, rfl⟩
    | succ k => exact hbytes k (Nat.lt_of_succ_lt_succ hk)

/-- Settles O20: the transaction leaves the bytes in the buffer, the commit makes them the reader's, and the reads take
them one by one. -/
theorem committedBytesComeBackInOrder : Obligations.CommittedBytesComeBackInOrder := by
  rintro s bs hs haux ⟨hread, -, -⟩ ⟨hrw, hf⟩ htw hlen
  have hnil : s.aux.Queued (.ring .aux) s.cfg.nAux s.aux.tentative [] := by
    rw [htw, ← hrw]
    exact queued_nil _ hread hf
  obtain ⟨t, hwt, hcfg, hstaged⟩ :=
    execAll_rbWt_queued bs (cap_le hs .aux) (.inr ⟨rfl, haux⟩) hnil (by simpa using hlen)
  have haux' : t.cfg.hasAux = true := hcfg ▸ haux
  have hcm : execAll (bs.map (.rbWt .aux) ++ [.rbCm .aux]) s
      = .next (respondFree true (t.setRing .aux t.aux.commit)) :=
    (execAll_append hwt).trans (execAll_cons (exec_rbCm (.inr ⟨rfl, haux'⟩)))
  have hcommitted : t.aux.commit.Queued (.ring .aux) t.cfg.nAux t.aux.commit.write bs := by
    rw [hcfg]
    exact hstaged.commit
  obtain ⟨hbytes, hlast⟩ := execAll_rbRd_queued bs (s := respondFree true (t.setRing .aux t.aux.commit))
    (cap_le (hcfg ▸ hs) .aux) (.inr ⟨rfl, haux'⟩) hcommitted
  simp only [execAll_append hcm]
  exact ⟨hbytes, hlast⟩

/-! ### An abort after any tentative writes (41 R127) -/

theorem size_eq_committed {n : Nat} {q : RingBuf} (hq : q.Inv n) (htw : q.tentative = q.write) :
    q.size n = q.committed n := by
  obtain ⟨⟨hread, hwrite, -⟩, -, -, hmeet, -⟩ := hq
  rw [RingBuf.committed]
  cases hf : q.full with
  | false =>
    rw [size_of_not_full hf]
    split
    case isTrue e => exact (diffN_eq_zero_iff hwrite hread).mpr e.symm
    case isFalse => rfl
  | true => rw [size_of_full hf, if_pos (htw.symm.trans (hmeet hf)), if_pos rfl]

theorem abort_settled (q : RingBuf) : q.abort.tentative = q.abort.write := by
  unfold RingBuf.abort
  split
  case isTrue h => exact h
  case isFalse => rfl

/-- A buffer with a byte in it either keeps `read` and `write` apart, or is full and stages nothing. -/
theorem writeTentative_keeps_committed {sp : Space} {n : Nat} {q r : RingBuf} {b : Byte} {ok : Bool}
    (h : q.writeTentative sp n b = .ok (ok, r)) (he : ¬q.Empty) : r.committed n = q.committed n := by
  obtain ⟨hread, hwrite, -⟩ := writeTentative_frame h
  by_cases hrw : q.read = q.write
  · have hf : q.full = true := by simpa [hrw] using he
    rw [writeTentative_full b hf] at h
    cases h
    rfl
  · rw [RingBuf.committed, RingBuf.committed, hread, hwrite, if_neg (Ne.symm hrw), if_neg (Ne.symm hrw)]

/-- Any bytes staged into a buffer that is not empty, those that fail among them, leave the committed count. -/
theorem execAll_rbWt_committed {q : RingId} (bs : List Byte) {s : State} (hs : (s.ring q).Inv (s.cap q))
    (hn : s.cap q ≤ 255) (hq : s.FgProduces q) (he : ¬(s.ring q).Empty) :
    ∃ t, execAll (bs.map (.rbWt q)) s = .next t ∧ t.cfg = s.cfg ∧ (t.ring q).Inv (s.cap q)
      ∧ (t.ring q).committed (s.cap q) = (s.ring q).committed (s.cap q) := by
  induction bs generalizing s with
  | nil => exact ⟨s, rfl, rfl, hs, rfl⟩
  | cons b bs ih =>
    obtain ⟨u, hu⟩ := stageAndRespond_runs hs.1 b
    obtain ⟨ok, r, hr, rfl⟩ := stageAndRespond_next hu
    have hinv := writeTentative_keeps_inv hn hs hr
    have hc := writeTentative_keeps_committed hr he
    have hne : ¬r.Empty := by rwa [← committed_eq_zero_iff hinv.1, hc, committed_eq_zero_iff hs.1]
    obtain ⟨t, hrun, hcfg, ht, hct⟩ :=
      ih (s := respondFree ok (s.setRing q r)) (by simpa using hinv) hn hq (by simpa using hne)
    rw [ring_respondFree, ring_setRing_self] at hct
    have hexec : exec (.rbWt q b) s = .next (respondFree ok (s.setRing q r)) :=
      (guardPort_ok _ (portCheck_producer.mpr hq)).trans hu
    exact ⟨t, (execAll_cons hexec).trans hrun, hcfg, ht, hct.trans hc⟩

/-- Fewer than N bytes staged into a buffer with nothing in it leave it empty to its consumer. -/
theorem execAll_rbWt_empty {q : RingId} (bs : List Byte) {s : State} (hs : (s.ring q).Inv (s.cap q))
    (hn : s.cap q ≤ 255) (hq : s.FgProduces q) (he : (s.ring q).Empty) (htw : (s.ring q).tentative = (s.ring q).write)
    (hlen : bs.length < s.cap q) :
    ∃ t, execAll (bs.map (.rbWt q)) s = .next t ∧ t.cfg = s.cfg ∧ (t.ring q).Inv (s.cap q) ∧ (t.ring q).Empty := by
  have htotal : (s.ring q).total (s.cap q) = 0 := by
    rw [RingBuf.total, (committed_eq_zero_iff hs.1).mpr he, RingBuf.staged, if_pos htw]
  obtain ⟨t, hrun, hcfg, ht, hread, hwrite, hunread⟩ := execAll_rbWt bs hs hn hq (by omega)
  refine ⟨t, hrun, hcfg, ht, by rw [hread, hwrite, he.1], ?_⟩
  rw [← Bool.not_eq_true, full_iff_total ht, ← length_unread (.ring q), hunread, List.length_append, length_unread,
    htotal, Nat.zero_add]
  exact hlen.ne

/-- Settles O21: the writes leave the committed count, the abort does too, and with nothing staged that count is
`size()`. -/
theorem abortRestoresSizeAndEmpty : Obligations.AbortRestoresSizeAndEmpty := by
  intro s q bs hs hq htw hbs
  have hn := cap_le hs.cfg q
  have hinv := ring_inv hs q
  obtain ⟨t, hrun, hcfg, ht, hc⟩ : ∃ t, execAll (bs.map (.rbWt q)) s = .next t ∧ t.cfg = s.cfg
      ∧ (t.ring q).Inv (s.cap q) ∧ (t.ring q).committed (s.cap q) = (s.ring q).committed (s.cap q) := by
    by_cases he : (s.ring q).Empty
    · obtain ⟨t, hrun, hcfg, ht, het⟩ :=
        execAll_rbWt_empty bs hinv hn hq he htw (hbs.resolve_right (not_not_intro he))
      exact ⟨t, hrun, hcfg, ht,
        ((committed_eq_zero_iff ht.1).mpr het).trans ((committed_eq_zero_iff hinv.1).mpr he).symm⟩
    · exact execAll_rbWt_committed bs hinv hn hq he
  have hqt : t.FgProduces q := by simpa only [State.FgProduces, hcfg] using hq
  have ha := abort_keeps_inv ht
  have hsize : (t.ring q).abort.size (s.cap q) = (s.ring q).size (s.cap q) := by
    rw [size_eq_committed ha (abort_settled _), (abort_total ht).1, hc, size_eq_committed hinv htw]
  refine ⟨_, (execAll_append hrun).trans (execAll_cons (exec_rbAb hqt)), ?_⟩
  rw [ring_respondFree, ring_setRing_self]
  refine ⟨hsize, ?_⟩
  rw [Bool.eq_iff_iff, ringBuf_isEmpty_iff, ringBuf_isEmpty_iff, ← size_eq_zero_iff ha.1, hsize,
    size_eq_zero_iff hinv.1]

end Sys2Proof.Machine

namespace Sys2Proof.Machine

/-! ### SP.SEND and SP.GET are unit RB's operations on OUT and on IN (42 R140, R146) -/

theorem exec_spSend (b : Byte) (s : State) : exec (.spSend b) s = exec (.rbWt .out b) s := rfl

theorem exec_spGet (s : State) : exec .spGet s = exec (.rbRd .inp) s := rfl

/-- Settles O23: SP.SEND is RB.WT on OUT, which FG always produces into. -/
theorem spSendStages : Obligations.SpSendStages := by
  intro s b hs ht
  rw [exec_spSend]
  exact rbWtStagesOneByte s .out b hs (.inl rfl) ht

/-- Settles O29: SP.GET is RB.RD on IN, which FG always consumes from. -/
theorem spGetPopsIn : Obligations.SpGetPopsIn := by
  intro s hs hr
  rw [exec_spGet]
  exact rbRdPops s .inp hs (.inl rfl) hr

/-! ### The answers of SP.AVAIL and SP.IDLE (42 R145, R147) -/

theorem boolData_not_isEmpty (q : RingBuf) : boolData (!q.isEmpty) = if q.Empty then 0#16 else 1#16 := by
  by_cases he : q.Empty
  · rw [(ringBuf_isEmpty_iff q).mpr he, if_pos he]
    rfl
  · rw [(ringBuf_isEmpty_eq_false_iff q).mpr he, if_neg he]
    rfl

/-- Settles O28: each is one response, of the flag as a data value. -/
theorem spAvailSpIdleAnswer : Obligations.SpAvailSpIdleAnswer := by
  intro s
  refine ⟨?_, rfl⟩
  rw [← boolData_not_isEmpty]
  rfl

/-! ### SP.COMMIT (42 R142, R143) -/

/-- Settles O24: the first step is a commit of OUT and FG's new sub-state. -/
theorem spCommitStepOnePublishes : Obligations.SpCommitStepOnePublishes := fun _ => rfl

/-- Between SP.COMMIT's two steps FG's move is the second. -/
theorem runMove_fg_published {s : State} (hp : s.fgPhase = .published) : runMove .fg s = commitKick s := by
  rw [runMove_fg, hp]

theorem step_kicks {s : State} {ms : List Move} (hp : s.fgPhase = .published) (hm : s.schedule = .fg :: ms) :
    step s = commitKick { s with schedule := ms } :=
  (step_scheduled hm).trans (runMove_fg_published hp)

theorem commitKick_starts {s : State} (hr : s.out.read.toNat < s.cfg.nOut) (hi : s.idle = true) (he : ¬s.out.Empty) :
    commitKick s = .next (respondFree true (endOp { s with
      out := s.out.popping s.cfg.nOut
      idle := false
      txie := true
      txd := Memory.byteAt (.ring .out) s.out.buf s.out.read.toNat
      txf := true
      im := false })) := by
  have hpop := pop_of_byte (q := .out) (s := { s with im := true, idle := false, txie := true }) he hr
  rw [commitKick, startChain, hi, (ringBuf_isEmpty_eq_false_iff s.out).mpr he, Bool.not_false, Bool.and_true,
    if_pos rfl, hpop]
  rfl

theorem commitKick_leaves {s : State} (h : s.idle = false ∨ s.out.Empty) :
    commitKick s = .next (respondFree true (endOp { s with im := false })) := by
  have hc : (s.idle && !s.out.isEmpty) = false := by
    rcases h with hi | he
    · rw [hi, Bool.false_and]
    · rw [(ringBuf_isEmpty_iff s.out).mpr he, Bool.not_true, Bool.and_false]
  simp [commitKick, startChain, hc]

/-- Settles O25: the step is the kick, which pops OUT into TXD. -/
theorem spCommitStepTwoStartsTheChain : Obligations.SpCommitStepTwoStartsTheChain := by
  intro s ms hs hr hp hm hi he
  refine ⟨_, (step_kicks hp hm).trans (commitKick_starts hr hi he), ?_, respondFree_answered .., rfl⟩
  exact popping_poppedTo _ (cap_pos hs .out) (cap_le hs .out)

/-- Settles O26: the step is the kick, which only answers. -/
theorem spCommitStepTwoLeavesTheChain : Obligations.SpCommitStepTwoLeavesTheChain := by
  intro s ms hp hm h
  exact ⟨_, (step_kicks hp hm).trans (commitKick_leaves h), respondFree_answered .., rfl⟩

/-- Settles O27: the kick leaves `idle` true only where OUT is empty, which is to have no committed byte. -/
theorem afterSpCommitChainRunsOrOutIsEmpty : Obligations.AfterSpCommitChainRunsOrOutIsEmpty := by
  intro s t ms hs hp hm h
  rw [step_kicks hp hm] at h
  rcases commitKick_next h with ⟨hi | he, rfl⟩ | ⟨v, r, -, -, rfl⟩
  · exact .inl hi
  · exact .inr ((committed_eq_zero_iff hs.out.1).mpr he)
  · exact .inl rfl

/-! ### The bytes on their way to the wire (42 R144 (b)) -/

/-- A read takes the oldest committed byte. -/
theorem contents_of_pop {sp : Space} {n : Nat} {q r : RingBuf} {v : Byte} (hn : n ≤ 255) (hq : q.Inv n)
    (h : q.pop sp n = .ok (some v, r)) : q.contents sp n = v :: r.contents sp n := by
  have he : ¬q.Empty := fun he => by
    rw [pop_empty he] at h
    cases h
  rw [pop_byte he hq.1.1] at h
  cases h
  exact contents_eq_cons hn hq he

/-- A byte popped from OUT into a free TXD is next behind the bytes taken, as it was before. -/
theorem sent_of_load {s : State} {v : Byte} {r : RingBuf} (hs : s.Inv) (htxf : s.txf = false)
    (hr : s.out.pop (.ring .out) s.cfg.nOut = .ok (some v, r)) :
    State.sent { s with out := r, txd := v, txf := true } = s.sent := by
  have hc : s.out.contents (.ring .out) s.cfg.nOut = v :: r.contents (.ring .out) s.cfg.nOut :=
    contents_of_pop (cap_le hs.cfg .out) hs.out hr
  simp [State.sent, htxf, hc]

theorem commitKick_sent {s t : State} (hs : s.Inv) (h : commitKick s = .next t) : t.sent = s.sent := by
  rcases commitKick_next h with ⟨-, rfl⟩ | ⟨v, r, hi, hr, rfl⟩
  · rfl
  · exact sent_of_load hs (hs.quiet hi) hr

theorem isrTxe_sent {s t : State} (hs : s.Inv) (h : isrTxe s = .next t) : t.sent = s.sent := by
  rcases isrTxe_next h with ⟨-, rfl⟩ | ⟨-, -, rfl⟩ | ⟨v, r, hen, hr, rfl⟩
  · rfl
  · rfl
  · obtain ⟨-, htxf, -⟩ := (txeEnabled_iff s).mp hen
    exact sent_of_load hs htxf hr

/-- WIRE.TAKE moves the byte in TXD to the end of the bytes taken. -/
theorem wireTake_sent (s : State) : (wireTake s).sent = s.sent := by
  unfold wireTake
  split
  case isTrue htxf => simp [State.sent, htxf]
  case isFalse => rfl

theorem runMove_sent {m : Move} {s t : State} (hs : s.Inv)
    (hm : m = .txe ∨ m = .take ∨ (m = .fg ∧ s.fgPhase = .published)) (h : runMove m s = .next t) : t.sent = s.sent := by
  rcases hm with rfl | rfl | ⟨rfl, hp⟩
  · exact isrTxe_sent hs h
  · obtain rfl := Host.Outcome.next.inj h
    exact wireTake_sent s
  · rw [runMove_fg_published hp] at h
    exact commitKick_sent hs h

/-- Settles O59: each of the three sending moves hands the oldest byte on by one place, or leaves all of them. -/
theorem transmitChainKeepsTheBytes : Obligations.TransmitChainKeepsTheBytes := by
  intro s t m ms hs hsched hm h
  rw [step_scheduled hsched] at h
  exact runMove_sent (s := { s with schedule := ms }) (inv_of_unconstrained hs rfl) hm h

end Sys2Proof.Machine

namespace Sys2Proof.Machine

/-! ### The codec's read-back (43 R177, R178, R179) -/

theorem frameLoad_inside {s : State} {n : Half} (h : n.toNat < s.cfg.frameCap) :
    frameLoad n s = some (Memory.byteAt .frame s.fcBuf n.toNat) := if_pos h

theorem frameLoad_outside {s : State} {n : Half} (h : s.cfg.frameCap ≤ n.toNat) : frameLoad n s = none :=
  if_neg (Nat.not_lt.mpr h)

theorem exec_fcRdb (n : Half) (s : State) : exec (.fcRdb n) s = .next (respondByte (frameLoad n s) s) := rfl

/-- Settles O35: the two queries are one response each, and FC.RDB answers what `frameLoad` finds. -/
theorem fcReadBackAnswers : Obligations.FcReadBackAnswers := by
  intro s n
  refine ⟨rfl, rfl, fun h => ?_, fun h => ?_⟩ <;> rw [exec_fcRdb]
  · rw [frameLoad_inside h]
    rfl
  · rw [frameLoad_outside h]
    exact ⟨_, rfl, respondFree_answered .., rfl⟩

/-! ### FC.ENC and FC.END (43 R170, R172) -/

theorem exec_fcEnc_verbatim {b : Byte} (hEnd : b ≠ bEND) (hEsc : b ≠ bESC) (s : State) :
    exec (.fcEnc b) s = exec (.spSend b) s := by
  change execFcEnc b s = _
  rw [execFcEnc, escapeCode_verbatim hEnd hEsc]
  rfl

theorem exec_fcEnd (s : State) : exec .fcEnd s = exec (.spSend bEND) s := rfl

/-- Settles O31: either operation is SP.SEND of its byte. -/
theorem fcEncVerbatimAndFcEnd : Obligations.FcEncVerbatimAndFcEnd := by
  rintro s i b hs ht (⟨rfl, hEnd, hEsc⟩ | ⟨rfl, rfl⟩)
  · rw [exec_fcEnc_verbatim hEnd hEsc]
    exact spSendStages s b hs ht
  · rw [exec_fcEnd]
    exact spSendStages s bEND hs ht

theorem exec_fcEnc_escaped_staging {s : State} {b c : Byte} (hc : escapeCode b = some c) (hf : s.out.full = false)
    (ht : s.out.tentative.toNat < s.cfg.nOut) :
    exec (.fcEnc b) s = .next { s with out := s.out.staging s.cfg.nOut bESC, fgPhase := .encSecond c } := by
  change execFcEnc b s = _
  rw [execFcEnc, hc]
  dsimp only
  rw [stage_room (q := .out) bESC hf ht]
  rfl

theorem exec_fcEnc_escaped_full {s : State} {b c : Byte} (hc : escapeCode b = some c) (hf : s.out.full = true) :
    exec (.fcEnc b) s = .next (respondFree false s) := by
  change execFcEnc b s = _
  rw [execFcEnc, hc]
  dsimp only
  rw [stage_full (q := .out) bESC hf]

theorem escapeCode_of_end_or_esc {b : Byte} (h : b = bEND ∨ b = bESC) :
    escapeCode b = some (if b = bEND then bESCEND else bESCESC) := by
  rcases h with rfl | rfl <;> rfl

/-- Settles O32: END and ESC have an escape code; with room its ESC is staged, and a full OUT is left. -/
theorem fcEncEscapedFirstStep : Obligations.FcEncEscapedFirstStep := by
  intro s b hs ht hb
  have hc := escapeCode_of_end_or_esc hb
  cases hf : s.out.full with
  | false =>
    refine ⟨_, exec_fcEnc_escaped_staging hc hf ht, fun _ => ⟨?_, rfl⟩, nofun⟩
    exact staging_stagedTo _ bESC (cap_pos hs .out) (cap_le hs .out)
  | true => exact ⟨_, exec_fcEnc_escaped_full hc hf, nofun, fun _ => ⟨respondFree_answered .., rfl⟩⟩

/-- Between FC.ENC's two steps FG's move is the second, which is SP.SEND of the byte still to be emitted. -/
theorem step_encodes_second {s : State} {c : Byte} {ms : List Move} (hp : s.fgPhase = .encSecond c)
    (hm : s.schedule = .fg :: ms) : step s = exec (.spSend c) (endOp { s with schedule := ms }) := by
  rw [step_scheduled hm, runMove_fg, hp]
  rfl

/-- Settles O33: the step is SP.SEND with FG's operation ended. -/
theorem fcEncEscapedSecondStep : Obligations.FcEncEscapedSecondStep := by
  intro s c ms hs ht hp hm
  rw [step_encodes_second hp hm]
  exact spSendStages (endOp { s with schedule := ms }) c hs ht

/-! ### FC.DEC, branch by branch (43 R174, R175) -/

section
variable {s : State} {b : Byte}

theorem exec_fcDec_afterEsc (he : s.fcEsc = true) :
    exec (.fcDec b) s = .next (respond false 0#16 (frameStore (unescape b) { s with fcEsc := false })) := if_pos he

theorem exec_fcDec_esc (he : s.fcEsc = false) :
    exec (.fcDec bESC) s = .next (respond false 0#16 { s with fcEsc := true }) := by
  change execFcDec bESC s = _
  rw [execFcDec, he]
  rfl

theorem exec_fcDec_end (he : s.fcEsc = false) :
    exec (.fcDec bEND) s = .next (respond true s.fcIdx { s with fcIdx := 0#16, fcEsc := false }) := by
  change execFcDec bEND s = _
  rw [execFcDec, he]
  rfl

theorem exec_fcDec_verbatim (he : s.fcEsc = false) (hEnd : b ≠ bEND) (hEsc : b ≠ bESC) :
    exec (.fcDec b) s = .next (respond false 0#16 (frameStore b s)) := by
  change execFcDec b s = _
  rw [execFcDec, he, if_neg Bool.false_ne_true, if_neg hEsc, if_neg hEnd]

end

theorem frameStore_inside {s : State} (v : Byte) (h : s.fcIdx.toNat < s.cfg.frameCap) :
    frameStore v s = { s with fcBuf := Memory.store s.fcBuf s.fcIdx.toNat v, fcIdx := s.fcIdx + 1 } := if_pos h

theorem frameStore_full {s : State} (v : Byte) (h : ¬s.fcIdx.toNat < s.cfg.frameCap) : frameStore v s = s := if_neg h

@[simp] theorem frameStore_cfg (v : Byte) (s : State) : (frameStore v s).cfg = s.cfg := by rw [frameStore_frame]

@[simp] theorem frameStore_fcEsc (v : Byte) (s : State) : (frameStore v s).fcEsc = s.fcEsc := by rw [frameStore_frame]

/-- `frameStore` in the words of 43 R174 and R175: F fits the index, so that advancing it does not wrap. -/
theorem frameStore_frameStored {s : State} (v : Byte) (hs : s.cfg.Valid) : s.FrameStored (frameStore v s) v := by
  obtain ⟨-, -, -, -, hcap⟩ := hs
  unfold State.FrameStored
  split
  case isTrue h =>
    rw [frameStore_inside v h]
    refine ⟨byteAt_store_self .., fun j hj => byteAt_store_of_ne _ _ v hj, ?_⟩
    change (s.fcIdx + 1).toNat = _
    bv_omega
  case isFalse h =>
    rw [frameStore_full v h]
    exact ⟨rfl, rfl⟩

/-- A state that differs by a frame store and the response, in the words of the statements. -/
theorem respond_frameStore_frame (v : Byte) (s : State) :
    let t := respond false 0#16 (frameStore v s)
    t = { s with fcBuf := t.fcBuf, fcIdx := t.fcIdx, resp := some (respWord false 0#16) } := by
  dsimp only
  rw [frameStore_frame]
  rfl

/-- Settles O34: one branch answers in each case, and a store is `frameStore`. -/
theorem fcDecBranches : Obligations.FcDecBranches := by
  intro s b hs _
  cases he : s.fcEsc with
  | true =>
    refine ⟨_, exec_fcDec_afterEsc he, fun _ => ⟨?_, respond_frameStore_frame ..⟩, nofun, nofun, nofun⟩
    exact frameStore_frameStored (s := { s with fcEsc := false }) (unescape b) hs
  | false =>
    by_cases hEsc : b = bESC
    · subst hEsc
      exact ⟨_, exec_fcDec_esc he, nofun, fun _ _ => rfl, fun _ h => absurd h (by decide), fun _ h => absurd rfl h⟩
    · by_cases hEnd : b = bEND
      · subst hEnd
        exact ⟨_, exec_fcDec_end he, nofun, fun _ h => absurd h hEsc, fun _ _ => rfl, fun _ _ h => absurd rfl h⟩
      · refine ⟨_, exec_fcDec_verbatim he hEnd hEsc, nofun, fun _ h => absurd h hEsc, fun _ h => absurd h hEnd,
          fun _ _ _ => ⟨frameStore_frameStored b hs, ?_⟩⟩
        simpa only [he] using respond_frameStore_frame b s

/-! ### Decoding what the encoder sends (43 R180) -/

/-- FC.DEC of the wire bytes, one after another, leads from the first state to the second, and every one of them is
answered with `ok = 0` and data 0: no frame ends. -/
inductive FcAbsorbs : List Byte → State → State → Prop where
  | nil (s : State) : FcAbsorbs [] s s
  | cons {b : Byte} {bs : List Byte} {s u t : State} (hb : exec (.fcDec b) s = .next u)
      (hu : u.resp = some (respWord false 0#16)) (hbs : FcAbsorbs bs u t) : FcAbsorbs (b :: bs) s t

namespace FcAbsorbs
variable {bs cs : List Byte} {s t u : State}

theorem append (h : FcAbsorbs bs s u) (h' : FcAbsorbs cs u t) : FcAbsorbs (bs ++ cs) s t := by
  induction h with
  | nil => exact h'
  | cons hb hu _ ih => exact .cons hb hu (ih h')

theorem execAll_eq (h : FcAbsorbs bs s t) : execAll (bs.map .fcDec) s = .next t := by
  induction h with
  | nil => rfl
  | cons hb _ _ ih => exact (execAll_cons hb).trans ih

theorem take_answers (h : FcAbsorbs bs s t) {n : Nat} (hpos : 0 < n) (hn : n ≤ bs.length) :
    ∃ u, execAll ((bs.take n).map .fcDec) s = .next u ∧ u.resp = some (respWord false 0#16) := by
  induction h generalizing n with
  | nil => exact absurd (hpos.trans_le hn) (Nat.lt_irrefl 0)
  | @cons b bs s u t hb hu _ ih =>
    obtain ⟨n, rfl⟩ := Nat.exists_eq_succ_of_ne_zero hpos.ne'
    rw [List.take_succ_cons, List.map_cons, execAll_cons hb]
    rcases Nat.eq_zero_or_pos n with rfl | hpos'
    · exact ⟨u, rfl, hu⟩
    · exact ih hpos' (Nat.le_of_succ_le_succ hn)

end FcAbsorbs

/-- The decoder has taken the payload bytes `p` of a frame that has not ended, and kept the first F of them. -/
structure State.Collected (s : State) (p : List Byte) : Prop where
  esc : s.fcEsc = false
  idx : s.fcIdx.toNat = min p.length s.cfg.frameCap
  byte : ∀ k (h : k < p.length), k < s.cfg.frameCap → Memory.byteAt .frame s.fcBuf k = p[k]

theorem collected_nil {s : State} (hi : s.fcIdx = 0#16) (he : s.fcEsc = false) : s.Collected [] :=
  ⟨he, by simp [hi], nofun⟩

namespace State.Collected
variable {s : State} {p : List Byte}

theorem respond (h : s.Collected p) (ok : Bool) (d : Half) : (respond ok d s).Collected p := ⟨h.esc, h.idx, h.byte⟩

/-- A store takes one more byte, kept where there is room. -/
theorem store (h : s.Collected p) (v : Byte) (hs : s.cfg.Valid) : (frameStore v s).Collected (p ++ [v]) := by
  obtain ⟨he, hidx, hbyte⟩ := h
  have hstored := frameStore_frameStored v hs
  unfold State.FrameStored at hstored
  have hesc := (frameStore_fcEsc v s).trans he
  have hcount : (p ++ [v]).length = p.length + 1 := List.length_append
  split at hstored
  case isTrue hlt =>
    obtain ⟨hnew, hold, hnext⟩ := hstored
    have hlen : s.fcIdx.toNat = p.length := by omega
    rw [hlen] at hnew hold
    refine ⟨hesc, by rw [hnext, frameStore_cfg]; omega, fun k hk _ => ?_⟩
    rw [hcount] at hk
    rcases Nat.lt_succ_iff_lt_or_eq.mp hk with hk | rfl
    · rw [hold k hk.ne, hbyte k hk (by omega), List.getElem_append_left hk]
    · rw [hnew, List.getElem_concat_length rfl]
  case isFalse hfull =>
    obtain ⟨hbuf, hnext⟩ := hstored
    refine ⟨hesc, by rw [hnext, frameStore_cfg]; omega, fun k _ hcap => ?_⟩
    rw [frameStore_cfg] at hcap
    have hk : k < p.length := by omega
    rw [hbuf, hbyte k hk hcap, List.getElem_append_left hk]

end State.Collected

theorem unescape_of_escapeCode {b c : Byte} (h : escapeCode b = some c) : unescape c = b := by
  rcases escapeCode_some h with ⟨rfl, rfl⟩ | ⟨rfl, rfl⟩ <;> rfl

theorem ne_of_escapeCode_none {b : Byte} (h : escapeCode b = none) : b ≠ bEND ∧ b ≠ bESC := by
  constructor <;> rintro rfl <;> cases h

/-- The wire bytes of one payload byte, one or two, are absorbed, and the payload byte is taken. -/
theorem fcAbsorbs_slipEnc {s : State} {p : List Byte} (b : Byte) (hs : s.cfg.Valid) (hp : s.Collected p) :
    ∃ t, FcAbsorbs (slipEnc b) s t ∧ t.cfg = s.cfg ∧ t.Collected (p ++ [b]) := by
  unfold slipEnc
  split
  case h_1 c hc =>
    have hp' : State.Collected { s with fcEsc := false } p := ⟨rfl, hp.idx, hp.byte⟩
    refine ⟨_, .cons (exec_fcDec_esc hp.esc) rfl (.cons (exec_fcDec_afterEsc rfl) rfl (.nil _)),
      frameStore_cfg .., ?_⟩
    rw [unescape_of_escapeCode hc]
    exact ((hp'.respond false 0#16).store b hs).respond false 0#16
  case h_2 hc =>
    obtain ⟨hEnd, hEsc⟩ := ne_of_escapeCode_none hc
    exact ⟨_, .cons (exec_fcDec_verbatim hp.esc hEnd hEsc) rfl (.nil _), frameStore_cfg ..,
      (hp.store b hs).respond false 0#16⟩

theorem fcAbsorbs_encoding (bs : List Byte) {s : State} {p : List Byte} (hs : s.cfg.Valid) (hp : s.Collected p) :
    ∃ t, FcAbsorbs (bs.flatMap slipEnc) s t ∧ t.cfg = s.cfg ∧ t.Collected (p ++ bs) := by
  induction bs generalizing s p with
  | nil => exact ⟨s, .nil s, rfl, by rwa [List.append_nil]⟩
  | cons b bs ih =>
    obtain ⟨u, hb, hu, hpu⟩ := fcAbsorbs_slipEnc b hs hp
    obtain ⟨t, hbs, ht, hpt⟩ := ih (hu ▸ hs) hpu
    rw [List.append_assoc] at hpt
    exact ⟨t, hb.append hbs, ht.trans hu, hpt⟩

/-- Settles O36: the encoding is absorbed byte by byte, and the END answers with the number of bytes kept. -/
theorem slipRoundTrip : Obligations.SlipRoundTrip := by
  intro s p hs hi he
  obtain ⟨u, henc, hcfg, hu⟩ := fcAbsorbs_encoding p hs (collected_nil hi he)
  rw [List.nil_append] at hu
  have hall : execAll ((p.flatMap slipEnc ++ [bEND]).map .fcDec) s
      = .next (respond true u.fcIdx { u with fcIdx := 0#16, fcEsc := false }) := by
    rw [List.map_append, execAll_append henc.execAll_eq]
    exact execAll_cons (exec_fcDec_end hu.esc)
  refine ⟨fun n => henc.take_answers, _, hall, ?_, fun k hk hcap => hu.byte k hk (hcfg ▸ hcap)⟩
  rw [respond_resp, ← hcfg, ← hu.idx, BitVec.ofNat_toNat, BitVec.setWidth_eq]

end Sys2Proof.Machine

namespace Sys2Proof.Machine

/-! ### The five statements of CK.UPD on natural numbers (44 R191) -/

theorem swapBytes_toNat (a : Half) : (swapBytes a).toNat = a.toNat % 256 * 256 + a.toNat / 256 := by
  have ha : a.toNat < 65536 := a.isLt
  have hhigh : a.toNat / 256 % 256 = a.toNat / 256 := Nat.mod_eq_of_lt (by omega)
  simp only [swapBytes, BitVec.toNat_append, BitVec.extractLsb'_toNat, Nat.shiftRight_eq_div_pow, Nat.reducePow,
    Nat.div_one, hhigh]
  rw [← Nat.shiftLeft_add_eq_or_of_lt (by omega), Nat.shiftLeft_eq]

theorem exec_ckUpd (b : Byte) (s : State) :
    exec (.ckUpd b) s = .next (respondFree true { s with ckAcc := ckUpdate s.ckAcc b }) := rfl

theorem byteData_toNat (b : Byte) : (byteData b).toNat = b.toNat := BitVec.toNat_setWidth_of_le (by decide)

/-- Settles O38: each statement on 16-bit words is the same statement on their values, and only the shift to the left
can pass bit 15. -/
theorem ckUpdFiveStatements : Obligations.CkUpdFiveStatements := by
  intro s b
  refine ⟨_, exec_ckUpd b s, ?_, respondFree_answered .., rfl⟩
  simp only [respondFree_ckAcc, ckUpdate, BitVec.toNat_xor, BitVec.toNat_and, BitVec.toNat_shiftLeft,
    BitVec.toNat_ushiftRight, BitVec.toNat_ofNat, swapBytes_toNat, byteData_toNat, Nat.reducePow, Nat.reduceMod]

/-! ### Linear maps of words (44 R194) -/

theorem and_xor_distrib_right (x y m : Half) : (x ^^^ y) &&& m = (x &&& m) ^^^ (y &&& m) :=
  BitVec.eq_of_toNat_eq Nat.and_xor_distrib_right

/-- The function carries exclusive-or over to exclusive-or. -/
def XorLinear (f : Half → Half) : Prop := ∀ x y, f (x ^^^ y) = f x ^^^ f y

namespace XorLinear
variable {f g : Half → Half}

theorem id : XorLinear fun a => a := fun _ _ => rfl

theorem comp (hf : XorLinear f) (hg : XorLinear g) : XorLinear (f ∘ g) := fun x y => by
  simp only [Function.comp_apply, hg x y, hf (g x) (g y)]

theorem xor (hf : XorLinear f) (hg : XorLinear g) : XorLinear fun a => f a ^^^ g a := fun x y => by
  simp only [hf x y, hg x y]
  ac_rfl

theorem and (hf : XorLinear f) (m : Half) : XorLinear fun a => f a &&& m := fun x y => by
  simp only [hf x y, and_xor_distrib_right]

theorem shiftLeft (hf : XorLinear f) (n : Nat) : XorLinear fun a => f a <<< n := fun x y => by
  simp only [hf x y, BitVec.shiftLeft_xor_distrib]

theorem ushiftRight (hf : XorLinear f) (n : Nat) : XorLinear fun a => f a >>> n := fun x y => by
  simp only [hf x y, BitVec.ushiftRight_xor_distrib]

theorem iterate (hf : XorLinear f) : ∀ n, XorLinear (Nat.iterate f n)
  | 0 => id
  | n + 1 => (iterate hf n).comp hf

theorem map_zero (hf : XorLinear f) : f 0 = 0 := by
  have h := hf 0 0
  rwa [BitVec.xor_self, BitVec.xor_self] at h

/-- Two linear maps that agree on the words of a single bit agree on every word: the bits of the word are taken off
one by one, the highest first. -/
theorem ext (hf : XorLinear f) (hg : XorLinear g)
    (h : ∀ k < 16, f (BitVec.twoPow 16 k) = g (BitVec.twoPow 16 k)) (x : Half) : f x = g x := by
  suffices hlow : ∀ k ≤ 16, ∀ x : Half, (∀ i, k ≤ i → x.getLsbD i = false) → f x = g x from
    hlow 16 le_rfl x fun i hi => BitVec.getLsbD_of_ge x i hi
  intro k
  induction k with
  | zero =>
    intro _ x hx
    have hx0 : x = 0 := BitVec.eq_of_getLsbD_eq fun i _ => by rw [hx i i.zero_le]; exact BitVec.getLsbD_zero.symm
    rw [hx0, hf.map_zero, hg.map_zero]
  | succ k ih =>
    intro hk x hx
    by_cases hbit : x.getLsbD k
    case neg =>
      exact ih (by omega) x fun i hi => (Nat.eq_or_lt_of_le hi).elim (fun e => by simpa [← e] using hbit) (hx i)
    case pos =>
      have hrest : f (x ^^^ BitVec.twoPow 16 k) = g (x ^^^ BitVec.twoPow 16 k) := by
        refine ih (by omega) _ fun i hi => ?_
        rw [BitVec.getLsbD_xor, BitVec.getLsbD_twoPow]
        rcases Nat.eq_or_lt_of_le hi with rfl | hlt
        · simp [hbit, Nat.lt_of_succ_le hk]
        · simp [hx i hlt, hlt.ne]
      have hx' : x = (x ^^^ BitVec.twoPow 16 k) ^^^ BitVec.twoPow 16 k := by
        rw [BitVec.xor_assoc, BitVec.xor_self, BitVec.xor_zero]
      rw [hx', hf, hg, hrest, h k hk]

end XorLinear

theorem xorLinear_swapBytes : XorLinear swapBytes := fun x y => by
  simp only [swapBytes, BitVec.extractLsb'_xor, ← BitVec.xor_append]

/-- Statements two to five of the update, each from the value of the one before (44 R191). -/
def ckFold : Half → Half :=
  (fun a : Half => a ^^^ ((a &&& 0xFF00#16) >>> 5)) ∘ (fun a : Half => a ^^^ ((a >>> 8) >>> 4))
    ∘ (fun a : Half => a ^^^ ((a &&& 0xFF00#16) <<< 4)) ∘ swapBytes

theorem ckUpdate_eq_ckFold (a : Half) (b : Byte) : ckUpdate a b = ckFold (a ^^^ byteData b) := rfl

theorem xorLinear_ckFold : XorLinear ckFold :=
  (XorLinear.id.xor ((XorLinear.id.and _).ushiftRight 5)).comp <|
  (XorLinear.id.xor ((XorLinear.id.ushiftRight 8).ushiftRight 4)).comp <|
  (XorLinear.id.xor ((XorLinear.id.and _).shiftLeft 4)).comp xorLinear_swapBytes

theorem byteData_xor (b d : Byte) : byteData (b ^^^ d) = byteData b ^^^ byteData d := BitVec.setWidth_xor

/-- Settles O39: the first statement and the other four are linear. -/
theorem ckUpdateIsLinear : Obligations.CkUpdateIsLinear := by
  intro x y b d
  have hfirst : (x ^^^ y) ^^^ byteData (b ^^^ d) = (x ^^^ byteData b) ^^^ (y ^^^ byteData d) := by
    rw [byteData_xor]
    ac_rfl
  rw [ckUpdate_eq_ckFold, hfirst, xorLinear_ckFold, ← ckUpdate_eq_ckFold, ← ckUpdate_eq_ckFold]

/-! ### CRC-16/KERMIT (44 R194) -/

theorem kermitBit_eq_xor (c : Half) : kermitBit c = (c >>> 1) ^^^ (if c.getLsbD 0 then 0x8408#16 else 0) := by
  unfold kermitBit
  split
  · rfl
  · exact BitVec.xor_zero.symm

theorem xorLinear_selectBit (i : Nat) (p : Half) : XorLinear fun c => if c.getLsbD i then p else 0 := fun x y => by
  cases hx : x.getLsbD i <;> cases hy : y.getLsbD i <;> simp [hx, hy]

theorem xorLinear_kermitBit : XorLinear kermitBit := by
  rw [funext kermitBit_eq_xor]
  exact (XorLinear.id.ushiftRight 1).xor (xorLinear_selectBit 0 _)

theorem ckFold_eq_kermit_twoPow :
    ∀ k < 16, ckFold (BitVec.twoPow 16 k) = Nat.iterate kermitBit 8 (BitVec.twoPow 16 k) := by decide

/-- Settles O40: both updates are linear in `a ^^^ b`, and they agree on each of its sixteen bits. -/
theorem ckUpdateIsKermit : Obligations.CkUpdateIsKermit := fun a b =>
  xorLinear_ckFold.ext (xorLinear_kermitBit.iterate 8) ckFold_eq_kermit_twoPow (a ^^^ byteData b)

end Sys2Proof.Machine

namespace Sys2Proof.Machine

/-! ### What an enabled handler does (60 R205, R206) -/

theorem rxcEnabled_iff (s : State) : s.rxcEnabled = true ↔ s.rxc = true ∧ s.im = false := by
  simp [State.rxcEnabled]

theorem isrTxe_sends {s : State} (hen : s.txeEnabled = true) (he : ¬s.out.Empty) (hr : s.out.read.toNat < s.cfg.nOut) :
    isrTxe s = .next { s with
      out := s.out.popping s.cfg.nOut
      txd := Memory.byteAt (.ring .out) s.out.buf s.out.read.toNat
      txf := true } := by
  rw [isrTxe, if_pos hen, txeBody, pop_of_byte (q := .out) he hr]
  rfl

theorem isrTxe_stops {s : State} (hen : s.txeEnabled = true) (he : s.out.Empty) :
    isrTxe s = .next { s with txie := false, idle := true } := by
  rw [isrTxe, if_pos hen, txeBody, pop_of_empty (q := .out) he]
  rfl

/-- Whatever the tentative write answers, its buffer is committed: ISR.RXC ignores the answer. -/
theorem isrRxc_takes {s : State} {ok : Bool} {r : RingBuf} (hen : s.rxcEnabled = true)
    (hw : s.inp.writeTentative (.ring .inp) s.cfg.nIn s.rxd = .ok (ok, r)) :
    isrRxc s = .next { s with rxc := false, inp := r.commit } := by
  have hstage : stage .inp s.rxd { s with rxc := false } = .ok (ok, State.setRing { s with rxc := false } .inp r) := by
    rw [stage, ring_inp, cap_inp, hw]
  rw [isrRxc, if_pos hen, rxcBody, hstage]
  rfl

theorem commit_of_settled {q : RingBuf} (h : q.tentative = q.write) : q.commit = q :=
  congrArg (fun w => { q with write := w }) h

/-- Settles O41: an enabled TXI pops OUT into TXD, or finds OUT empty and stops the chain. -/
theorem isrTxeSendsOrStops : Obligations.IsrTxeSendsOrStops := by
  intro s ms hs hr hsched htxie htxf him
  have hen : s.txeEnabled = true := (txeEnabled_iff s).mpr ⟨htxie, htxf, him⟩
  rw [step_scheduled hsched]
  refine ⟨fun he => ⟨_, isrTxe_sends hen he hr, ?_, rfl⟩, fun he => isrTxe_stops hen he⟩
  exact popping_poppedTo _ (cap_pos hs .out) (cap_le hs .out)

/-- Settles O42: with room the buffer is `staging`, committed; a full IN has nothing staged, so its commit leaves it. -/
theorem isrRxcStagesAndCommits : Obligations.IsrRxcStagesAndCommits := by
  intro s ms hs ht hsettled hsched hrxc him
  have hen : s.rxcEnabled = true := (rxcEnabled_iff s).mpr ⟨hrxc, him⟩
  rw [step_scheduled hsched]
  constructor
  · intro hf
    refine ⟨_, isrRxc_takes hen (writeTentative_room s.rxd hf ht), ?_, rfl, rfl⟩
    exact staging_stagedTo _ s.rxd (cap_pos hs .inp) (cap_le hs .inp)
  · intro hf
    have hrun : isrRxc { s with schedule := ms } = .next { s with schedule := ms, rxc := false, inp := s.inp.commit } :=
      isrRxc_takes hen (writeTentative_full s.rxd hf)
    rwa [commit_of_settled hsettled] at hrun

/-! ### The order of the handlers (60 R207) -/

/-- Settles O44: neither handler writes a field the other one reads, so after the other it does what it does first. -/
theorem handlersCommute : Obligations.HandlersCommute := by
  intro s hs htxe hrxc
  obtain ⟨ok, _, hstage⟩ := stage_answers (q := .inp) (ring_inRange hs .inp) s.rxd
  obtain ⟨r, hw, -⟩ := stage_cases hstage
  by_cases he : s.out.Empty
  · exact ⟨_, _, _, isrTxe_stops htxe he, isrRxc_takes hrxc hw, isrRxc_takes hrxc hw, isrTxe_stops htxe he, hrxc, htxe⟩
  · obtain ⟨hr, -, -⟩ := ring_inRange hs .out
    exact ⟨_, _, _, isrTxe_sends htxe he hr, isrRxc_takes hrxc hw, isrRxc_takes hrxc hw, isrTxe_sends htxe he hr,
      hrxc, htxe⟩

end Sys2Proof.Machine

namespace Sys2Proof.Machine

/-! ### What FG learns from a snapshot (70 R251) -/

/-- A tentative write, published, leaves a byte to read, whether it was staged or found the buffer full: where the new
`write` meets `read` again, `full` is set. -/
theorem commit_not_empty_of_writeTentative {sp : Space} {n : Nat} {q r : RingBuf} {b : Byte} {ok : Bool}
    (ht : q.tentative.toNat < n) (h : q.writeTentative sp n b = .ok (ok, r)) : ¬r.commit.Empty := by
  rintro ⟨hmeet, hnot⟩
  cases hf : q.full
  · rw [writeTentative_room b hf ht] at h
    obtain ⟨-, rfl⟩ := Prod.mk.inj (Except.ok.inj h)
    exact beq_eq_false_iff_ne.mp hnot hmeet.symm
  · rw [writeTentative_full b hf] at h
    obtain ⟨-, rfl⟩ := Prod.mk.inj (Except.ok.inj h)
    exact Bool.noConfusion (hf.symm.trans hnot)

/-- A read never sets `full`. -/
theorem pop_keeps_not_full {sp : Space} {n : Nat} {q r : RingBuf} {v : Option Byte} (hr : q.read.toNat < n)
    (h : q.pop sp n = .ok (v, r)) (hf : q.full = false) : r.full = false := by
  by_cases he : q.Empty
  · rw [pop_empty he] at h
    obtain ⟨-, rfl⟩ := Prod.mk.inj (Except.ok.inj h)
    exact hf
  · rw [pop_byte he hr] at h
    obtain ⟨-, rfl⟩ := Prod.mk.inj (Except.ok.inj h)
    rfl

theorem isrRxc_keeps_inp_nonempty {s t : State} (hs : s.Inv) (h : isrRxc s = .next t) (he : ¬s.inp.Empty) :
    ¬t.inp.Empty := by
  rcases isrRxc_next h with ⟨-, rfl⟩ | ⟨ok, r, -, hw, rfl⟩
  · exact he
  · obtain ⟨-, -, ht⟩ := ring_inRange hs .inp
    exact commit_not_empty_of_writeTentative ht hw

theorem isrTxe_keeps_out_not_full {s t : State} (hs : s.Inv) (h : isrTxe s = .next t) (hf : s.out.full = false) :
    t.out.full = false := by
  rcases isrTxe_next h with ⟨-, rfl⟩ | ⟨-, -, rfl⟩ | ⟨v, r, -, hpop, rfl⟩
  · exact hf
  · exact hf
  · obtain ⟨hr, -, -⟩ := ring_inRange hs .out
    exact pop_keeps_not_full hr hpop hf

theorem runMove_keeps_inp_nonempty {m : Move} {s t : State} (hs : s.Inv) (hfg : m ≠ .fg) (h : runMove m s = .next t)
    (he : ¬s.inp.Empty) : ¬t.inp.Empty := by
  cases m with
  | fg => exact absurd rfl hfg
  | txe => rwa [isrTxe_frame h]
  | rxc => exact isrRxc_keeps_inp_nonempty hs h he
  | take | arrive b pick => rwa [runMove_wire_frame h nofun nofun nofun]

theorem runMove_keeps_out_not_full {m : Move} {s t : State} (hs : s.Inv) (hfg : m ≠ .fg) (h : runMove m s = .next t)
    (hf : s.out.full = false) : t.out.full = false := by
  cases m with
  | fg => exact absurd rfl hfg
  | txe => exact isrTxe_keeps_out_not_full hs h hf
  | rxc => rwa [isrRxc_frame h]
  | take | arrive b pick => rwa [runMove_wire_frame h nofun nofun nofun]

/-- Settles O58: the other agents only produce into IN, and only consume from OUT. -/
theorem availAndRoomAreStable : Obligations.AvailAndRoomAreStable := by
  intro s t m ms hs hsched hfg h
  rw [step_scheduled hsched] at h
  have hs' : State.Inv { s with schedule := ms } := inv_of_unconstrained hs rfl
  rw [ringBuf_isEmpty_eq_false_iff, ringBuf_isEmpty_eq_false_iff]
  exact ⟨fun he => runMove_keeps_inp_nonempty hs' hfg h he, fun hf => runMove_keeps_out_not_full hs' hfg h hf⟩

end Sys2Proof.Machine

namespace Sys2Proof.Machine

/-! ### Whose move a step is (20 R67, 60 R218) -/

theorem runMove_fg_idle {s : State} (hp : s.fgPhase = .idle) (hw : s.cmds = []) : runMove .fg s = .next s := by
  rw [runMove_fg, hp, hw]

/-- Settles O7: the schedule's next move, or the free one; FG's own, with nothing to do, is a stutter. -/
theorem stepTakesOneMove : Obligations.StepTakesOneMove := by
  refine ⟨fun _ _ _ => step_scheduled, fun _ => step_unscheduled, fun s ms hsched hp hw => ?_⟩
  rw [step_scheduled hsched]
  exact runMove_fg_idle hp hw

/-! ### RB.PK (41 R115) -/

section
variable {s : State} {q : RingId} (hq : s.FgConsumes q)
include hq

theorem exec_rbPk_byte (he : ¬(s.ring q).Empty) (hr : (s.ring q).read.toNat < s.cap q) :
    exec (.rbPk q) s = .next (respond true
      (byteData (Memory.byteAt (.ring q) (s.ring q).buf (s.ring q).read.toNat)) s) := by
  change guardPort .consumer q s _ = _
  rw [guardPort_ok _ (portCheck_consumer.mpr hq), peek_byte he hr]
  rfl

theorem exec_rbPk_empty (he : (s.ring q).Empty) : exec (.rbPk q) s = .next (respondFree false s) := by
  change guardPort .consumer q s _ = _
  rw [guardPort_ok _ (portCheck_consumer.mpr hq), peek_empty he]
  rfl

end

/-- Settles O14: with a byte, and without one, the response is all that RB.PK writes. -/
theorem rbPkLooks : Obligations.RbPkLooks :=
  fun _ _ hq hr => ⟨fun he => exec_rbPk_byte hq he hr,
    fun he => ⟨_, exec_rbPk_empty hq he, respondFree_answered .., rfl⟩⟩

/-! ### RB.RDW, at its issue and at each poll of the held FG (41 R122) -/

theorem exec_rbRdw {s : State} {q : RingId} (hq : s.FgConsumes q) : exec (.rbRdw q) s = readWait q s :=
  guardPort_ok _ (portCheck_consumer.mpr hq)

theorem step_polls {s : State} {q : RingId} {ms : List Move} (hp : s.fgPhase = .holding q)
    (hsched : s.schedule = .fg :: ms) : step s = readWait q { s with schedule := ms } := by
  simp only [step_scheduled hsched, runMove_fg, hp]

theorem readWait_holds {s : State} {q : RingId} (he : (s.ring q).Empty) :
    readWait q s = .next { s with fgPhase := .holding q } :=
  if_pos ((ringBuf_isEmpty_iff _).mpr he)

theorem readWait_reads {s : State} {q : RingId} (hs : s.cfg.Valid) (hr : (s.ring q).read.toNat < s.cap q)
    (he : ¬(s.ring q).Empty) :
    ∃ t, readWait q s = .next t ∧ (s.ring q).PoppedTo (s.cap q) (t.ring q)
      ∧ t = { s.setRing q (t.ring q) with
          fgPhase := .idle
          resp := some (respWord true (byteData (Memory.byteAt (.ring q) (s.ring q).buf (s.ring q).read.toNat))) } := by
  have hpop := pop_of_byte (q := q) (s := endOp s) (by rwa [ring_endOp]) (by rwa [ring_endOp])
  rw [readWait, (ringBuf_isEmpty_eq_false_iff _).mpr he, if_neg Bool.false_ne_true, popAndRespond, hpop, ring_endOp]
  refine ⟨_, rfl, ?_, ?_⟩ <;> rw [respondByte, ring_respond, ring_setRing_self]
  · exact popping_poppedTo _ (cap_pos hs q) (cap_le hs q)
  · rfl

/-- Settles O15: looking at an empty buffer holds FG, or keeps it held. -/
theorem rbRdwHoldsWhileEmpty : Obligations.RbRdwHoldsWhileEmpty := by
  intro s q he
  refine ⟨fun hq => (exec_rbRdw hq).trans (readWait_holds he), fun ms hp hsched => ?_⟩
  have hpoll : step s = .next { s with schedule := ms, fgPhase := .holding q } :=
    (step_polls hp hsched).trans (readWait_holds (by rwa [ring_schedule]))
  rwa [← hp] at hpoll

/-- Settles O16: either way the look is a read of RB.RD's kind, and FG's operation ends with it. -/
theorem rbRdwReadsWhenThereIsAByte : Obligations.RbRdwReadsWhenThereIsAByte := by
  intro s q hs hr he
  refine ⟨fun hq => ?_, fun ms hp hsched => ?_⟩
  · rw [exec_rbRdw hq]
    exact readWait_reads hs hr he
  · rw [step_polls hp hsched]
    have hread := readWait_reads (s := { s with schedule := ms }) (q := q) hs
    rw [ring_schedule] at hread
    exact hread hr he

/-! ### CK.RST and CK.GET (44 R190, R193) -/

/-- Settles O37: CK.RST loads the parameter and answers with no data, CK.GET answers with CK.acc. -/
theorem ckRstCkGet : Obligations.CkRstCkGet := fun _ => ⟨⟨_, rfl, respondFree_answered .., rfl⟩, rfl⟩

/-! ### The handlers off their condition, and the wire (60 R203, R210, R211) -/

theorem isrTxe_disabled {s : State} (h : ¬(s.txie = true ∧ s.txf = false ∧ s.im = false)) : isrTxe s = .next s :=
  if_neg fun hen => h ((txeEnabled_iff s).mp hen)

theorem isrRxc_disabled {s : State} (h : ¬(s.rxc = true ∧ s.im = false)) : isrRxc s = .next s :=
  if_neg fun hen => h ((rxcEnabled_iff s).mp hen)

/-- Settles O43: off its condition and enable the handler is not run. -/
theorem handlersRunOnlyWhenEnabled : Obligations.HandlersRunOnlyWhenEnabled := by
  refine fun s ms => ⟨fun hsched h => ?_, fun hsched h => ?_⟩ <;> rw [step_scheduled hsched]
  · exact isrTxe_disabled h
  · exact isrRxc_disabled h

section
variable {s : State}

theorem wireTake_full (h : s.txf = true) : wireTake s = { s with wireOut := s.wireOut ++ [s.txd], txf := false } :=
  if_pos h

theorem wireTake_free (h : s.txf = false) : wireTake s = s := if_neg (by simp [h])

variable {b : Byte} {pick : OverrunPick}

theorem wireArrive_free (h : s.rxc = false) :
    wireArrive b pick s = { s with wireIn := s.wireIn ++ [b], rxd := b, rxc := true } := if_neg (by simp [h])

theorem wireArrive_forbidden (h : s.rxc = true) (ho : s.cfg.rxOverrun = .forbidden) : wireArrive b pick s = s := by
  rw [wireArrive, if_pos h, ho]

theorem wireArrive_dropNew (h : s.rxc = true)
    (ho : s.cfg.rxOverrun = .dropNew ∨ s.cfg.rxOverrun = .either ∧ pick = .dropNew) :
    wireArrive b pick s = { s with wireIn := s.wireIn ++ [b] } := by
  rw [wireArrive, if_pos h]
  rcases ho with ho | ⟨ho, rfl⟩ <;> rw [ho] <;> rfl

theorem wireArrive_dropOld (h : s.rxc = true)
    (ho : s.cfg.rxOverrun = .dropOld ∨ s.cfg.rxOverrun = .either ∧ pick = .dropOld) :
    wireArrive b pick s = { s with wireIn := s.wireIn ++ [b], rxd := b } := by
  rw [wireArrive, if_pos h]
  rcases ho with ho | ⟨ho, rfl⟩ <;> rw [ho] <;> rfl

end

theorem step_takes {s : State} {ms : List Move} (h : s.schedule = .take :: ms) :
    step s = .next (wireTake { s with schedule := ms }) := step_scheduled h

theorem step_arrives {s : State} {b : Byte} {pick : OverrunPick} {ms : List Move}
    (h : s.schedule = .arrive b pick :: ms) : step s = .next (wireArrive b pick { s with schedule := ms }) :=
  step_scheduled h

/-- Settles O45: by what TXF, RXC and RX_OVERRUN say. -/
theorem wireTakesAndArrives : Obligations.WireTakesAndArrives := by
  refine fun s ms => ⟨fun hsched => ?_, fun b pick hsched => ?_⟩
  · rw [step_takes hsched]
    exact ⟨fun h => congrArg _ (wireTake_full h), fun h => congrArg _ (wireTake_free h)⟩
  · rw [step_arrives hsched]
    exact ⟨fun h => congrArg _ (wireArrive_free h), fun h ho => congrArg _ (wireArrive_forbidden h ho),
      fun h ho => congrArg _ (wireArrive_dropNew h ho), fun h ho => congrArg _ (wireArrive_dropOld h ho)⟩

/-! ### Reset, the parameters, and the quiescent block -/

theorem reset_ring (c : Config) (q : RingId) : (State.resetFor c).ring q = RingBuf.reset := by cases q <;> rfl

/-- With no element the difference of equal indices is still 0, so the capacity may be anything. -/
theorem reset_size (n : Nat) : RingBuf.reset.size n = 0 := by
  simp [RingBuf.size, RingBuf.reset, diffN]

/-- Settles O46: every buffer is as it is created, and the other fields have the values written for reset. -/
theorem resetValues : Obligations.ResetValues := by
  refine ⟨rfl, by decide, fun c => ⟨rfl, fun q => ?_, rfl, rfl, rfl, rfl, rfl, rfl, rfl, rfl, rfl, rfl,
    rfl, rfl, rfl, rfl⟩⟩
  rw [reset_ring]
  exact ⟨rfl, rfl, rfl, rfl, rfl, reset_size _⟩

theorem runMove_cfg {m : Move} {s t : State} (h : runMove m s = .next t) : t.cfg = s.cfg := by
  by_cases hfg : m = .fg
  · subst hfg
    rcases runMove_fg_next h with ⟨-, h⟩ | ⟨a, h⟩
    · rw [commitKick_frame h]
    · rw [h.frame]
  · rw [runMove_other_frame hfg h]

/-- Settles O56: no agent's move has the parameters among the fields it writes. -/
theorem parametersNeverChange : Obligations.ParametersNeverChange := by
  intro s t h
  obtain ⟨m, ms, d, e⟩ := step_is_a_move s
  rw [e] at h
  exact runMove_cfg (s := { s with schedule := ms, draws := d }) h

/-- Settles O57: the port idle, TXIE is clear; and RXC and TXF are clear. -/
theorem quiescentBlockIsStill : Obligations.QuiescentBlockIsStill := by
  rintro s m ms hs ⟨-, hrxc, htxf, hidle⟩ hm hsched
  have htxie : s.txie = false := by simpa [hidle] using hs.chain
  obtain ⟨txe_still, rxc_still⟩ := handlersRunOnlyWhenEnabled s ms
  obtain ⟨take, -⟩ := wireTakesAndArrives s ms
  rcases hm with rfl | rfl | rfl
  · exact txe_still hsched (by simp [htxie])
  · exact rxc_still hsched (by simp [hrxc])
  · obtain ⟨-, take_still⟩ := take hsched
    exact take_still htxf

end Sys2Proof.Machine

namespace Sys2Proof.Machine

/-! ### A running chain (60 R216)

A turn of the wire frees TXD, so the handler's turn that follows finds its condition met: it sends the next byte, or
finds OUT empty and stops the chain. -/

theorem wireTake_txf (s : State) : (wireTake s).txf = false := by
  cases htxf : s.txf with
  | false => rw [wireTake_free htxf, htxf]
  | true => rw [wireTake_full htxf]

theorem wireTake_schedule (s : State) (ms : List Move) :
    ({ wireTake s with schedule := ms } : State) = wireTake { s with schedule := ms } := by
  unfold wireTake
  split <;> rfl

theorem txeEnabled_of_running {s : State} (hs : s.Inv) (hi : s.idle = false) (htxf : s.txf = false) :
    s.txeEnabled = true := by
  have htxie : s.txie = true := by simpa [hi] using hs.chain
  exact (txeEnabled_iff s).mpr ⟨htxie, htxf, hs.unmasked⟩

/-- With TXD free, a running chain sends one committed byte, or stops because there is none. -/
theorem isrTxe_of_running {s : State} (hs : s.Inv) (hi : s.idle = false) (htxf : s.txf = false) :
    ∃ t, isrTxe s = .next t ∧ t.schedule = s.schedule
      ∧ t.out.committed t.cfg.nOut = s.out.committed s.cfg.nOut - 1
      ∧ (t.idle = true ↔ s.out.committed s.cfg.nOut = 0) := by
  have hen := txeEnabled_of_running hs hi htxf
  have hrange : s.out.InRange s.cfg.nOut := ring_inRange hs .out
  have hempty := committed_eq_zero_iff hrange
  by_cases he : s.out.Empty
  · have hzero := hempty.mpr he
    refine ⟨_, isrTxe_stops hen he, rfl, ?_, iff_of_true rfl hzero⟩
    change s.out.committed s.cfg.nOut = s.out.committed s.cfg.nOut - 1
    rw [hzero]
  · obtain ⟨hr, -, -⟩ := hrange
    obtain ⟨hcount, -⟩ := pop_counts (cap_le hs.cfg .out) hs.out he
    refine ⟨_, isrTxe_sends hen he hr, rfl, Nat.eq_sub_of_add_eq hcount, iff_of_false ?_ (he ∘ hempty.mp)⟩
    simp [hi]

theorem run_succ_of_step {M : Host.Core} {s t : M.State} (h : M.step s = .next t) (k : Nat) :
    M.run (k + 1) s = M.run k t := by
  rw [Host.Core.run, h]

/-- One turn of the wire and one of the handler, as two steps of a run. -/
theorem run_turn {s : State} {ms : List Move} (hs : s.Inv) (hi : s.idle = false)
    (hsched : s.schedule = .take :: .txe :: ms) :
    ∃ t : State, (∀ k, Host.Core.run core (k + 2) s = Host.Core.run core k t) ∧ t.Inv ∧ t.sent = s.sent
      ∧ t.schedule = ms ∧ t.out.committed t.cfg.nOut = s.out.committed s.cfg.nOut - 1
      ∧ (t.idle = true ↔ s.out.committed s.cfg.nOut = 0) := by
  have htake : step s = .next (wireTake { s with schedule := .txe :: ms }) := step_takes hsched
  have hw : (wireTake { s with schedule := ms }).Inv := wireTake_keeps_inv (inv_of_unconstrained hs rfl)
  obtain ⟨t, htxe, hms, hcount, hidle⟩ :=
    isrTxe_of_running hw (by rw [wireTake_frame]; exact hi) (wireTake_txf _)
  have hsent : t.sent = s.sent := (isrTxe_sent hw htxe).trans (wireTake_sent { s with schedule := ms })
  have hstep : step (wireTake { s with schedule := .txe :: ms }) = .next t := by
    rw [step_scheduled (m := .txe) (ms := ms) (by rw [wireTake_frame]), wireTake_schedule]
    exact htxe
  rw [wireTake_frame] at hms hcount hidle
  have hrun k : Host.Core.run core (k + 2) s = Host.Core.run core k t :=
    (run_succ_of_step (M := core) htake (k + 1)).trans (run_succ_of_step (M := core) hstep k)
  exact ⟨t, hrun, isrTxe_keeps_inv hw htxe, hsent, hms, hcount, hidle⟩

/-- Each turn sends the oldest committed byte, and the one after the last of them stops the chain. -/
theorem run_drains {n : Nat} {s : State} {ms : List Move} (hs : s.Inv) (hi : s.idle = false)
    (hn : n = s.out.committed s.cfg.nOut)
    (hsched : s.schedule = (List.replicate (n + 1) [Move.take, Move.txe]).flatten ++ ms) :
    ∃ t : State, Host.Core.run core (2 * (n + 1)) s = .next t ∧ t.Inv ∧ t.sent = s.sent ∧ t.idle = true
      ∧ t.out.committed t.cfg.nOut = 0 ∧ t.schedule = ms := by
  induction n generalizing s with
  | zero =>
    obtain ⟨t, hrun, ht, hsent, hms, hcount, hidle⟩ := run_turn hs hi hsched
    rw [← hn] at hcount hidle
    exact ⟨t, hrun 0, ht, hsent, hidle.mpr rfl, hcount, hms⟩
  | succ n ih =>
    obtain ⟨u, hrun, hu, hsent, hms, hcount, hidle⟩ := run_turn hs hi hsched
    rw [← hn] at hcount hidle
    have hrunning : u.idle = false := Bool.eq_false_of_not_eq_true fun h => Nat.succ_ne_zero n (hidle.mp h)
    obtain ⟨t, hrest, ht, htsent, hstopped⟩ := ih hu hrunning hcount.symm hms
    exact ⟨t, (hrun _).trans hrest, ht, htsent.trans hsent, hstopped⟩

/-- Of what is on its way, a stopped chain and a drained OUT leave only what has reached the wire. -/
theorem wireOut_eq_sent {s : State} (hs : s.Inv) (hi : s.idle = true) (hc : s.out.committed s.cfg.nOut = 0) :
    s.wireOut = s.sent := by
  simp [State.sent, RingBuf.contents, hs.quiet hi, hc]

/-- Settles O60: the turns drain OUT and keep the bytes on their way, which have then all reached the wire. -/
theorem chainDrainsOut : Obligations.ChainDrainsOut := by
  intro s n ms hs hi hn hsched
  obtain ⟨t, hrun, ht, hsent, hidle, hc, hms⟩ := run_drains hs hi hn hsched
  exact ⟨t, hrun, hsent ▸ wireOut_eq_sent ht hidle hc, hidle, hc, hms⟩

end Sys2Proof.Machine
